-- ==== Sys2Proof/Word.lean ====
section
/-! DEFINITION. The machine's words, register selectors and window addresses. -/

namespace Sys2Proof

/-- One word: an unsigned 32-bit digit of a magnitude in base 2^32 (R20), and one access of the host port (R66). -/
abbrev Word := BitVec 32

/-- A BigNum register selector: the value k names `B[k]` (R28, R91). -/
abbrev Reg := Fin 8

/-- A word address of the register window, 13 bits (R60, R61). -/
abbrev Addr := BitVec 13

end Sys2Proof
end

