-- ==== Sys2Proof/Syntax.lean ====
section
/-! DEFINITION. The commands: one constructor per row of spec/opcode_table.json, operands in the order of R101. -/

namespace Sys2Proof

/-- A command (R92, R93). Register operands are selectors; `FLIPB`, `SHW`, `SHB` and `LDU64` also read `ARG0`, `ARG1` (R94). -/
inductive Instr where
  /-- CMPM Ba, Bb (R140) -/
  | cmpm (a b : Reg)
  /-- EQMU Ba, Bb (R141) -/
  | eqmu (a b : Reg)
  /-- FLIPB Bd, Ba, #ARG0 (R151) -/
  | flipb (d a : Reg)
  /-- SHW Bd, Ba, #ARG0 (R152) -/
  | shw (d a : Reg)
  /-- SHB Bd, Ba, #ARG0 (R153) -/
  | shb (d a : Reg)
  /-- BOR Bd, Ba, Bb (R154) -/
  | bor (d a b : Reg)
  /-- BAND Bd, Ba, Bb (R155) -/
  | band (d a b : Reg)
  /-- BXOR Bd, Ba, Bb (R156) -/
  | bxor (d a b : Reg)
  /-- ADDM Bd, Ba, Bb (R170) -/
  | addm (d a b : Reg)
  /-- SUBM Bd, Ba, Bb (R171) -/
  | subm (d a b : Reg)
  /-- MULM Bd, Ba, Bb (R172) -/
  | mulm (d a b : Reg)
  /-- DIVM Bq, Br, Ba, Bb (R173) -/
  | divm (q r a b : Reg)
  /-- ADD Bd, Ba, Bb (R191) -/
  | add (d a b : Reg)
  /-- SUB Bd, Ba, Bb (R192) -/
  | sub (d a b : Reg)
  /-- MUL Bd, Ba, Bb (R193) -/
  | mul (d a b : Reg)
  /-- DIV Bq, Br, Ba, Bb (R194) -/
  | div (q r a b : Reg)
  /-- MOD Bd, Ba, Bb (R210) -/
  | mod (d a b : Reg)
  /-- GCD Bd, Bx, By, Ba, Bb (R220) -/
  | gcd (d x y a b : Reg)
  /-- MODPOW Bd, Bbase, Bexp, Bmod (R230) -/
  | modpow (d base exp mod : Reg)
  /-- MOV Bd, Ba (R121) -/
  | mov (d a : Reg)
  /-- LDU64 Bd, #ARG1:ARG0, negated when `neg`, the command's `sg` bit (R122) -/
  | ldu64 (d : Reg) (neg : Bool)
  deriving DecidableEq, Repr

end Sys2Proof
end

