-- ==== Sys2Proof/WellFormed.lean ====
section
/-! DEFINITION. The register constraints of R97 on a command's used destination fields. -/

namespace Sys2Proof

/-- The used destination fields of a command, in the order rd0, rd1, rd2 (R92). -/
def Instr.dests : Instr → List Reg
  | .cmpm _ _ => []
  | .eqmu _ _ => []
  | .flipb d _ => [d]
  | .shw d _ => [d]
  | .shb d _ => [d]
  | .bor d _ _ => [d]
  | .band d _ _ => [d]
  | .bxor d _ _ => [d]
  | .addm d _ _ => [d]
  | .subm d _ _ => [d]
  | .mulm d _ _ => [d]
  | .divm q r _ _ => [q, r]
  | .add d _ _ => [d]
  | .sub d _ _ => [d]
  | .mul d _ _ => [d]
  | .div q r _ _ => [q, r]
  | .mod d _ _ => [d]
  | .gcd d x y _ _ => [d, x, y]
  | .modpow d _ _ _ => [d]
  | .mov d _ => [d]
  | .ldu64 d _ => [d]

/-- Why a command violates R97. -/
inductive WfError where
  /-- R97 (a): a used destination names `B0` or `B1`. -/
  | destinationIsConstant
  /-- R97 (b): two used destinations name one register. -/
  | destinationsCoincide
  deriving DecidableEq, Repr

/-- R97 (a), then (b): the violation, or none. -/
def Instr.check (i : Instr) : Option WfError :=
  if i.dests.any (· < 2) then some .destinationIsConstant
  else if i.dests.Nodup then none
  else some .destinationsCoincide

/-- The command meets R97. Sources are unconstrained. -/
def Instr.wf (i : Instr) : Bool := i.check.isNone

end Sys2Proof
end

