-- ==== Sys2Proof/Decode.lean ====
section
/-! DEFINITION. The command word (R90 to R96): its fields, the opcode map, the decoder, and the encoder from the same tables. -/

namespace Sys2Proof

/-- The fields of the command word (R91). -/
structure Fields where
  /-- bits 31:24 -/
  op : BitVec 8
  /-- bits 23:21 -/
  rd0 : Reg
  /-- bits 20:18 -/
  rd1 : Reg
  /-- bits 17:15 -/
  rd2 : Reg
  /-- bits 14:12 -/
  rs0 : Reg
  /-- bits 11:9 -/
  rs1 : Reg
  /-- bits 8:6 -/
  rs2 : Reg
  /-- bits 5:1 -/
  zero : BitVec 5
  /-- bit 0 -/
  sg : Bool
  deriving DecidableEq, Repr

/-- The 3-bit selector whose lowest bit is bit `lo` of `w`. -/
def selectorAt (w : Word) (lo : Nat) : Reg := Fin.ofNat 8 (w.toNat / 2 ^ lo)

/-- The fields of a word (R91). -/
def fieldsOf (w : Word) : Fields where
  op := BitVec.ofNat 8 (w.toNat / 2 ^ 24)
  rd0 := selectorAt w 21
  rd1 := selectorAt w 18
  rd2 := selectorAt w 15
  rs0 := selectorAt w 12
  rs1 := selectorAt w 9
  rs2 := selectorAt w 6
  zero := BitVec.ofNat 5 (w.toNat / 2)
  sg := decide (w.toNat % 2 = 1)

/-- The word with the given fields, as R104 works it out. -/
def wordOf (f : Fields) : Word :=
  BitVec.ofNat 32 (f.op.toNat * 2 ^ 24 + f.rd0.val * 2 ^ 21 + f.rd1.val * 2 ^ 18 + f.rd2.val * 2 ^ 15 + f.rs0.val * 2 ^ 12
    + f.rs1.val * 2 ^ 9 + f.rs2.val * 2 ^ 6 + f.zero.toNat * 2 + f.sg.toNat)

/-- Which fields a command uses (R92); bits 5:1 are used by none. -/
structure Uses where
  rd0 : Bool := false
  rd1 : Bool := false
  rd2 : Bool := false
  rs0 : Bool := false
  rs1 : Bool := false
  rs2 : Bool := false
  sg : Bool := false
  deriving DecidableEq, Repr

/-- Every field the command does not use is 0, and so are bits 5:1 (R96). -/
def unusedZero (u : Uses) (f : Fields) : Bool :=
  (u.rd0 || f.rd0 == 0) && (u.rd1 || f.rd1 == 0) && (u.rd2 || f.rd2 == 0) && (u.rs0 || f.rs0 == 0)
    && (u.rs1 || f.rs1 == 0) && (u.rs2 || f.rs2 == 0) && f.zero == 0 && (u.sg || !f.sg)

/-- A row of the opcode map: the opcode (R93), the fields used (R92), and the command read from them. -/
structure OpRow where
  op : BitVec 8
  uses : Uses
  build : Fields → Instr

/-- The row's `match` column in R93: the opcode and nothing else. -/
def matchOf (r : OpRow) : Word := wordOf ⟨r.op, 0, 0, 0, 0, 0, 0, 0, false⟩

/-- The row's `mask` column in R93: `op`, every unused field, bits 5:1, and `sg` where unused. -/
def maskOf (r : OpRow) : Word :=
  wordOf ⟨0xFF, if r.uses.rd0 then 0 else 7, if r.uses.rd1 then 0 else 7, if r.uses.rd2 then 0 else 7,
    if r.uses.rs0 then 0 else 7, if r.uses.rs1 then 0 else 7, if r.uses.rs2 then 0 else 7, 0x1F, !r.uses.sg⟩

/-- Two sources, no destination. -/
def usesAB : Uses := { rs0 := true, rs1 := true }
/-- One destination, one source. -/
def usesDA : Uses := { rd0 := true, rs0 := true }
/-- One destination, two sources. -/
def usesDAB : Uses := { rd0 := true, rs0 := true, rs1 := true }
/-- Two destinations, two sources. -/
def usesQRAB : Uses := { rd0 := true, rd1 := true, rs0 := true, rs1 := true }

/-- The opcode map, in the order of R93. -/
def opcodeMap : List OpRow := [
  ⟨0x10, usesAB, fun f => .cmpm f.rs0 f.rs1⟩,
  ⟨0x11, usesAB, fun f => .eqmu f.rs0 f.rs1⟩,
  ⟨0x20, usesDA, fun f => .flipb f.rd0 f.rs0⟩,
  ⟨0x21, usesDA, fun f => .shw f.rd0 f.rs0⟩,
  ⟨0x22, usesDA, fun f => .shb f.rd0 f.rs0⟩,
  ⟨0x23, usesDAB, fun f => .bor f.rd0 f.rs0 f.rs1⟩,
  ⟨0x24, usesDAB, fun f => .band f.rd0 f.rs0 f.rs1⟩,
  ⟨0x25, usesDAB, fun f => .bxor f.rd0 f.rs0 f.rs1⟩,
  ⟨0x30, usesDAB, fun f => .addm f.rd0 f.rs0 f.rs1⟩,
  ⟨0x31, usesDAB, fun f => .subm f.rd0 f.rs0 f.rs1⟩,
  ⟨0x32, usesDAB, fun f => .mulm f.rd0 f.rs0 f.rs1⟩,
  ⟨0x33, usesQRAB, fun f => .divm f.rd0 f.rd1 f.rs0 f.rs1⟩,
  ⟨0x40, usesDAB, fun f => .add f.rd0 f.rs0 f.rs1⟩,
  ⟨0x41, usesDAB, fun f => .sub f.rd0 f.rs0 f.rs1⟩,
  ⟨0x42, usesDAB, fun f => .mul f.rd0 f.rs0 f.rs1⟩,
  ⟨0x43, usesQRAB, fun f => .div f.rd0 f.rd1 f.rs0 f.rs1⟩,
  ⟨0x50, usesDAB, fun f => .mod f.rd0 f.rs0 f.rs1⟩,
  ⟨0x60, { usesQRAB with rd2 := true }, fun f => .gcd f.rd0 f.rd1 f.rd2 f.rs0 f.rs1⟩,
  ⟨0x70, { usesDAB with rs2 := true }, fun f => .modpow f.rd0 f.rs0 f.rs1 f.rs2⟩,
  ⟨0x80, usesDA, fun f => .mov f.rd0 f.rs0⟩,
  ⟨0x81, { rd0 := true, sg := true }, fun f => .ldu64 f.rd0 f.sg⟩]

/-- Why a word is no command (R99, steps 1 and 2). Either way the block raises `IllegalCommand`. -/
inductive DecodeError where
  /-- R95: the opcode is in no row of R93. -/
  | unknownOpcode
  /-- R96: an unused field, bits 5:1 or an unused `sg` is not 0. -/
  | unusedFieldSet
  deriving DecidableEq, Repr

/-- The command the fields spell (R99, steps 1 and 2). -/
def decodeFields (f : Fields) : Except DecodeError Instr :=
  match opcodeMap.find? (·.op == f.op) with
  | none => .error .unknownOpcode
  | some r => if unusedZero r.uses f then .ok (r.build f) else .error .unusedFieldSet

/-- Decoding a command word. The register constraints of R97 are checked after it (R93, R99 step 3; log entry 7). -/
def decode (w : Word) : Except DecodeError Instr := decodeFields (fieldsOf w)

/-- The fields of a command: its opcode, its operands, every unused field 0 (R92, R93). -/
def fieldsOfInstr : Instr → Fields
  | .cmpm a b => ⟨0x10, 0, 0, 0, a, b, 0, 0, false⟩
  | .eqmu a b => ⟨0x11, 0, 0, 0, a, b, 0, 0, false⟩
  | .flipb d a => ⟨0x20, d, 0, 0, a, 0, 0, 0, false⟩
  | .shw d a => ⟨0x21, d, 0, 0, a, 0, 0, 0, false⟩
  | .shb d a => ⟨0x22, d, 0, 0, a, 0, 0, 0, false⟩
  | .bor d a b => ⟨0x23, d, 0, 0, a, b, 0, 0, false⟩
  | .band d a b => ⟨0x24, d, 0, 0, a, b, 0, 0, false⟩
  | .bxor d a b => ⟨0x25, d, 0, 0, a, b, 0, 0, false⟩
  | .addm d a b => ⟨0x30, d, 0, 0, a, b, 0, 0, false⟩
  | .subm d a b => ⟨0x31, d, 0, 0, a, b, 0, 0, false⟩
  | .mulm d a b => ⟨0x32, d, 0, 0, a, b, 0, 0, false⟩
  | .divm q r a b => ⟨0x33, q, r, 0, a, b, 0, 0, false⟩
  | .add d a b => ⟨0x40, d, 0, 0, a, b, 0, 0, false⟩
  | .sub d a b => ⟨0x41, d, 0, 0, a, b, 0, 0, false⟩
  | .mul d a b => ⟨0x42, d, 0, 0, a, b, 0, 0, false⟩
  | .div q r a b => ⟨0x43, q, r, 0, a, b, 0, 0, false⟩
  | .mod d a b => ⟨0x50, d, 0, 0, a, b, 0, 0, false⟩
  | .gcd d x y a b => ⟨0x60, d, x, y, a, b, 0, 0, false⟩
  | .modpow d base exp mod => ⟨0x70, d, 0, 0, base, exp, mod, 0, false⟩
  | .mov d a => ⟨0x80, d, 0, 0, a, 0, 0, 0, false⟩
  | .ldu64 d neg => ⟨0x81, d, 0, 0, 0, 0, 0, 0, neg⟩

/-- The command word of a command (R90, R91). -/
def encode (i : Instr) : Word := wordOf (fieldsOfInstr i)

/-- The command the decoder reads from an opcode-table word: a command is one 32-bit word, so bits of `w` from `nbits` on are 0. -/
def decodeTableWord (nbits w : Nat) : Option Instr :=
  match decode (BitVec.ofNat 32 (w % 2 ^ nbits)) with
  | .ok i => some i
  | .error _ => none

end Sys2Proof
end

