-- ==== Sys2Proof/Config.lean ====
section
/-! DEFINITION. The parameters of the block (R5) and the values the spec leaves open. -/

namespace Sys2Proof.Config

/-- `IDXW`, the bits of a word index: 9 for this hardware (R5, D3; log entry 9). -/
abbrev idxW : Nat := 9

/-- `CAP`, the capacity of a BigNum in words: 2^`IDXW` (R5, R21). -/
def cap : Nat := 512

/-- `MAXMAG` = 2^(32·`CAP`): every magnitude a register holds is below it (R5). -/
def maxMag : Nat := 2 ^ (32 * cap)

/-- The any-value word the host reads at a `META` or BigNum address while the block is busy (R62), and at every address while
`rst` is high (R280). FREE VALUE, no body: nothing constrains it (log entry 2). -/
opaque freeWord : Nat → Word

/-- Whether a host write to a read-only BigNum location (`META0`, `META1`, a word of `B0` or `B1`) while the block is busy sets
`ERRSTICKY` bit 6: R65 and R67 answer differently. FREE VALUE, no body (log entry 3). -/
opaque freeBit : Nat → Bool

end Sys2Proof.Config
end

