-- ==== Sys2Proof/Machine/State.lean ====
section
/-! DEFINITION. The state of the block and its host port (R45, R60), the reasons a step can stop, and the state after reset (R47). -/

namespace Sys2Proof.Machine

/-- A BigNum register (R22): `w`, word 0 least significant; `top`, the most significant live word; `sg`, true for sign -1. -/
structure BigNum where
  w : List Word
  top : BitVec Config.idxW
  sg : Bool
  len : w.length = Config.cap
  deriving DecidableEq, Repr

/-- The constant zero (R29), also the canonical zero every general register holds after reset (R47). -/
def BigNum.zero : BigNum := ⟨List.replicate Config.cap 0, 0, false, List.length_replicate⟩

/-- The constant one (R29). -/
def BigNum.one : BigNum := ⟨1 :: List.replicate (Config.cap - 1) 0, 0, false, congrArg (· + 1) List.length_replicate⟩

/-- The errors a command can complete with (R240). The taxonomy's `MalformedLiteral` is never raised by the block (R243). -/
inductive CmdError where
  /-- code 1: a result of magnitude 2^(32·CAP) or more (R241) -/
  | capacityExceeded
  /-- code 2: a divisor or modulus of zero magnitude (R242) -/
  | divideByZero
  /-- code 4: a bit index or shift amount beyond the capacity (R244) -/
  | bitIndexOutOfRange
  /-- code 5: a word that is no command (R245) -/
  | illegalCommand
  deriving DecidableEq, Repr

/-- `FLAGS` (R34). -/
structure Flags where
  lt : Bool
  eq : Bool
  gt : Bool
  deriving DecidableEq, Repr

/-- `ERRSTICKY` (R41): bits 1, 2, 4, 5 by error code, and bit 6 for a write dropped while busy. -/
structure Sticky where
  capacityExceeded : Bool
  divideByZero : Bool
  bitIndexOutOfRange : Bool
  illegalCommand : Bool
  busyViolation : Bool
  deriving DecidableEq, Repr

/-- What the host does to the block: a word read, a word write (R11), or a level on the reset pin (R60). -/
inductive HostAccess where
  | memRead (a : Addr)
  | memWrite (a : Addr) (v : Word)
  | setRst (level : Bool)
  deriving DecidableEq, Repr

/-- Which agent acts (R6): the host, or the block (completing the command in flight, if there is one). -/
inductive Turn where
  | host (h : HostAccess)
  | block
  deriving DecidableEq, Repr

/-- The architectural state (R45), the reset pin and read data of the host port (R60), then the model's own two fields. -/
structure State where
  /-- `B2` .. `B7` (R28) -/
  regs : Vector BigNum 6
  /-- `CMD`, also the command in flight while busy (R36, R44) -/
  cmd : Word
  /-- `STATUS.BUSY` (R37) -/
  busy : Bool
  /-- `STATUS.DONE` (R37) -/
  done : Bool
  /-- `STATUS.ERR`: `none` is code 0 (R37, R240) -/
  err : Option CmdError
  /-- `CTRL.IE` (R38) -/
  ie : Bool
  /-- `FLAGS` (R34) -/
  flags : Flags
  /-- `ARG0` (R39) -/
  arg0 : Word
  /-- `ARG1` (R39) -/
  arg1 : Word
  /-- `ERRSTICKY` (R41) -/
  sticky : Sticky
  /-- the level of the reset pin (R60, R280) -/
  rst : Bool
  /-- the read data of the host port: what the last read returned (R60, R62; log entry 8) -/
  readData : Word
  /-- the model's own: the turns still to come, oldest first (log entry 1) -/
  turns : List Turn
  /-- the model's own: how many free values have been drawn (log entry 2) -/
  freeCount : Nat
  deriving DecidableEq, Repr

/-- No step stops with a fault: every error of the spec completes its command with a code and the block stays usable (R247, R249),
and an address outside the window cannot be put on the 13-bit port (R60). Safe: nothing is left out (log entry 12). -/
inductive Fault where
  deriving DecidableEq, Repr

/-- Why a step is refused. -/
inductive Refusal where
  /-- Raised by no arm: every command has its meaning. Kept for an instruction without one. Safe. -/
  | notModelled (mnemonic : String)
  deriving DecidableEq, Repr

/-- The outcome of a step. -/
abbrev Outcome := Host.Outcome State Fault Refusal

/-- The machine right after reset (R47, R280), the reset pin low again, no turn scheduled. -/
def State.reset : State where
  regs := Vector.replicate 6 BigNum.zero
  cmd := 0
  busy := false
  done := false
  err := none
  ie := false
  flags := ⟨false, false, false⟩
  arg0 := 0
  arg1 := 0
  sticky := ⟨false, false, false, false, false⟩
  rst := false
  readData := 0
  turns := []
  freeCount := 0

end Sys2Proof.Machine
end

