-- ==== Sys2Proof/Machine/Value.lean ====
section
/-! DEFINITION. The value functions of R9 and the canonical image of R10. -/

namespace Sys2Proof.Machine

/-- `r.w[i]`, and 0 beyond the capacity (R8). -/
def BigNum.word (r : BigNum) (i : Nat) : Word := r.w.getD i 0

/-- `r.w[i] <- v`; nothing else changes (R63). -/
def BigNum.setWord (r : BigNum) (i : Nat) (v : Word) : BigNum :=
  { r with w := r.w.set i v, len := by simpa using r.len }

/-- The number a word sequence writes in base 2^32, least significant first (R20). -/
def wordsValue : List Word → Nat
  | [] => 0
  | x :: xs => x.toNat + 2 ^ 32 * wordsValue xs

/-- `mag(r)`: the sum of `r.w[i]·2^(32·i)` for i from 0 to `r.top`; words above `top` are not read (R9, R24). -/
def BigNum.mag (r : BigNum) : Nat := wordsValue (r.w.take (r.top.toNat + 1))

/-- `sgn(r)` (R9). -/
def BigNum.sgn (r : BigNum) : Int := if r.sg then -1 else 1

/-- `val(r)` = `sgn(r)·mag(r)` (R9, R23). -/
def BigNum.val (r : BigNum) : Int := r.sgn * r.mag

/-- The largest j ≤ i with `r.w[j]` ≠ 0, or 0. -/
def BigNum.topNonzeroFrom (r : BigNum) : Nat → Nat
  | 0 => 0
  | i + 1 => if r.word (i + 1) = 0 then r.topNonzeroFrom i else i + 1

/-- `etop(r)`: the largest i ≤ `r.top` with `r.w[i]` ≠ 0, or 0 if there is none (R9). -/
def BigNum.etop (r : BigNum) : Nat := r.topNonzeroFrom r.top.toNat

/-- The words of R10: `w[i]` = floor(m / 2^(32·i)) mod 2^32, for i below `CAP`. -/
def wordsOf (m : Nat) : List Word := (List.range Config.cap).map fun i => BitVec.ofNat 32 (m >>> (32 * i))

theorem length_wordsOf (m : Nat) : (wordsOf m).length = Config.cap := by simp [wordsOf]

/-- The `top` of R10: 0 if m = 0, else floor(msb(m) / 32). -/
def topOf (m : Nat) : BitVec Config.idxW := if m = 0 then 0 else BitVec.ofNat Config.idxW (m.log2 / 32)

/-- `pack(v)`, the canonical image of `v` (R10). -/
def pack (v : Int) : BigNum := ⟨wordsOf v.natAbs, topOf v.natAbs, decide (v < 0), length_wordsOf v.natAbs⟩

end Sys2Proof.Machine
end

