-- ==== Sys2Proof/Machine/Ops.lean ====
section
/-! DEFINITION. The named operations on registers and status: reading and writing a BigNum register, raising an error,
completing a command. -/

namespace Sys2Proof.Machine

/-- `B[k]` (R28): `B0` and `B1` are hardwired to zero and one (R29). -/
def State.reg (s : State) (k : Reg) : BigNum :=
  if k.val = 0 then BigNum.zero
  else if k.val = 1 then BigNum.one
  else s.regs[k.val - 2]'(by have := k.isLt; omega)

/-- `B[k]` takes an image; `B0` and `B1` discard it (R29, R65). -/
def State.setReg (s : State) (k : Reg) (r : BigNum) : State :=
  if h : 2 ≤ k.val then { s with regs := s.regs.set (k.val - 2) r (by have := k.isLt; omega) } else s

/-- `B[k] <- v` (R8, R30): the canonical image, all of it at once. -/
def writeReg (s : State) (k : Reg) (v : Int) : State := s.setReg k (pack v)

/-- The destinations of a command, each written with its value (R98). -/
def writeRegs (s : State) : List (Reg × Int) → State
  | [] => s
  | (k, v) :: rest => writeRegs (writeReg s k v) rest

/-- The register constraints of R97, as a command's completion checks them. -/
def destsLegal (ds : List Reg) : Bool := ds.all (fun k => 2 ≤ k.val) && decide ds.Nodup

/-- `STATUS.ERR` and `ERRSTICKY` bit number of an error (R240). -/
def CmdError.code : CmdError → Nat
  | .capacityExceeded => 1
  | .divideByZero => 2
  | .bitIndexOutOfRange => 4
  | .illegalCommand => 5

/-- `ERRSTICKY[e] <- 1` (R41, R247). -/
def Sticky.record (t : Sticky) : CmdError → Sticky
  | .capacityExceeded => { t with capacityExceeded := true }
  | .divideByZero => { t with divideByZero := true }
  | .bitIndexOutOfRange => { t with bitIndexOutOfRange := true }
  | .illegalCommand => { t with illegalCommand := true }

/-- TAKING AN ERROR (R247): what `raise e` leaves. The four status updates and nothing else; the next command runs normally (R249). -/
def raise (e : CmdError) (s : State) : State :=
  { s with err := some e, sticky := s.sticky.record e, busy := false, done := true }

/-- Completing without error (R98): `ERR` 0, `BUSY` 0, `DONE` 1. -/
def finish (s : State) : State := { s with err := none, busy := false, done := true }

/-- Completing a command that has destinations (R98, R99 steps 3 to 5): all of them written, or an error and none of them. -/
def commit (ds : List Reg) (result : Except CmdError (List Int)) (s : State) : Outcome :=
  .next <|
    if destsLegal ds then
      match result with
      | .error e => raise e s
      | .ok vs => finish (writeRegs s (ds.zip vs))
    else raise .illegalCommand s

/-- Completing a comparison, which writes `FLAGS` and no register (R98). -/
def commitFlags (f : Flags) (s : State) : Outcome := .next (finish { s with flags := f })

/-- `check_cap(v)` (R11): `CapacityExceeded` when |v| ≥ `MAXMAG`. -/
def checkCap (v : Int) : Except CmdError Int :=
  if Config.maxMag ≤ v.natAbs then .error .capacityExceeded else .ok v

end Sys2Proof.Machine
end

