-- ==== Sys2Proof/Machine/Operands.lean ====
section
/-! DEFINITION. The operand forms: registers read through `sgn` and `mag` only (R31), scalars from `ARG0` and `ARG1` (R94). -/

namespace Sys2Proof.Machine

/-- `val(B[k])`. -/
def valOf (s : State) (k : Reg) : Int := (s.reg k).val

/-- `mag(B[k])`. -/
def magOf (s : State) (k : Reg) : Nat := (s.reg k).mag

/-- `sgn(B[k])`: the sign bit, also of a zero magnitude (R31, R151). -/
def sgnOf (s : State) (k : Reg) : Int := (s.reg k).sgn

/-- FLIPB's `bitIndex` = zext_32(`ARG0`) (R94). -/
def bitIndex (s : State) : Nat := s.arg0.toNat

/-- SHW's and SHB's `n` = sext_32(`ARG0`) (R94). -/
def shiftAmount (s : State) : Int := s.arg0.toInt

/-- LDU64's value = zext_32(`ARG1`)·2^32 + zext_32(`ARG0`) (R94). -/
def longValue (s : State) : Nat := s.arg1.toNat * 2 ^ 32 + s.arg0.toNat

end Sys2Proof.Machine
end

