-- ==== Sys2Proof/Machine/Flags.lean ====
section
/-! DEFINITION. The two flag computations (R34, R140, R141). -/

namespace Sys2Proof.Machine

/-- CMPM's flags: exactly one of the three (R140). -/
def compareFlags (ma mb : Nat) : Flags := ⟨decide (ma < mb), decide (ma = mb), decide (mb < ma)⟩

/-- Word i of a register as EQMU and the bitwise commands see it: a word above `top` counts as 0 and is not read (R141). -/
def BigNum.liveWord (r : BigNum) (i : Nat) : Word := if i ≤ r.top.toNat then r.word i else 0

/-- EQMU's comparison, word by word up to the larger `top` (R141). -/
def equalWords (a b : BigNum) : Bool :=
  (List.range (max a.top.toNat b.top.toNat + 1)).all fun i => a.liveWord i == b.liveWord i

/-- EQMU's flags: `EQ` the truth value, `LT` and `GT` 0 (R141). -/
def equalFlags (eq : Bool) : Flags := ⟨false, eq, false⟩

end Sys2Proof.Machine
end

