-- ==== Sys2Proof/Machine/BitLogic.lean ====
section
/-! DEFINITION. Bit and logic operations: FLIPB, SHW, SHB, BOR, BAND, BXOR (R150 to R157). -/

namespace Sys2Proof.Machine

/-- FLIPB's result (R151): `sgn·(m XOR 2^i)`. -/
def flipBit (sg : Int) (m i : Nat) : Except CmdError Int :=
  if Config.cap ≤ i / 32 then .error .bitIndexOutOfRange else .ok (sg * ((m ^^^ 2 ^ i : Nat) : Int))

/-- A magnitude shifted by `n` places of `unit` bits (R152, R153): the amount checked first when positive, then the capacity;
a negative amount discards low bits and raises nothing. -/
def shiftBy (unit : Nat) (sg : Int) (m : Nat) (n : Int) : Except CmdError Int :=
  if (32 * Config.cap : Nat) ≤ (unit : Int) * n then .error .bitIndexOutOfRange
  else if 0 ≤ n then checkCap (sg * ((m * 2 ^ (unit * n.toNat) : Nat) : Int))
  else .ok (sg * ((m >>> (unit * (-n).toNat) : Nat) : Int))

/-- SHW's result (R152): 32 bits a place, so an amount of `CAP` or more is out of range. -/
def shiftWords (sg : Int) (m : Nat) (n : Int) : Except CmdError Int := shiftBy 32 sg m n

/-- SHB's result (R153): one bit a place, so an amount of 32·`CAP` or more is out of range. -/
def shiftBits (sg : Int) (m : Nat) (n : Int) : Except CmdError Int := shiftBy 1 sg m n

/-- FLIPB (R151). -/
def execFlipb (d a : Reg) (s : State) : Outcome :=
  commit [d] ((flipBit (sgnOf s a) (magOf s a) (bitIndex s)).map ([·])) s

/-- SHW (R152). -/
def execShw (d a : Reg) (s : State) : Outcome :=
  commit [d] ((shiftWords (sgnOf s a) (magOf s a) (shiftAmount s)).map ([·])) s

/-- SHB (R153). -/
def execShb (d a : Reg) (s : State) : Outcome :=
  commit [d] ((shiftBits (sgnOf s a) (magOf s a) (shiftAmount s)).map ([·])) s

/-- BOR (R154): sign +1. -/
def execBor (d a b : Reg) (s : State) : Outcome := commit [d] (.ok [((magOf s a ||| magOf s b : Nat) : Int)]) s

/-- BAND (R155): sign +1. -/
def execBand (d a b : Reg) (s : State) : Outcome := commit [d] (.ok [((magOf s a &&& magOf s b : Nat) : Int)]) s

/-- BXOR (R156): sign +1. -/
def execBxor (d a b : Reg) (s : State) : Outcome := commit [d] (.ok [((magOf s a ^^^ magOf s b : Nat) : Int)]) s

end Sys2Proof.Machine
end

