-- ==== Sys2Proof/Machine/Comparison.lean ====
section
/-! DEFINITION. The comparator: CMPM and EQMU (R140, R141). -/

namespace Sys2Proof.Machine

/-- CMPM (R140). -/
def execCmpm (a b : Reg) (s : State) : Outcome := commitFlags (compareFlags (magOf s a) (magOf s b)) s

/-- EQMU (R141). -/
def execEqmu (a b : Reg) (s : State) : Outcome := commitFlags (equalFlags (equalWords (s.reg a) (s.reg b))) s

end Sys2Proof.Machine
end

