-- ==== Sys2Proof/Machine/Construction.lean ====
section
/-! DEFINITION. MOV and LDU64 (R121, R122). -/

namespace Sys2Proof.Machine

/-- MOV (R121): the canonical copy. -/
def execMov (d a : Reg) (s : State) : Outcome := commit [d] (.ok [valOf s a]) s

/-- LDU64 (R122): the 64-bit value of `ARG1`:`ARG0`, negated when the command's `sg` is 1. -/
def execLdu64 (d : Reg) (neg : Bool) (s : State) : Outcome :=
  commit [d] (.ok [if neg then -(longValue s : Int) else longValue s]) s

end Sys2Proof.Machine
end

