-- ==== Sys2Proof/Machine/UnsignedCore.lean ====
section
/-! DEFINITION. The unsigned arithmetic core: ADDM, SUBM, MULM, DIVM (R170 to R175). -/

namespace Sys2Proof.Machine

/-- `ADDM(A, B)` (R170). -/
def addMag (a b : Nat) : Except CmdError Int := checkCap ((a + b : Nat) : Int)

/-- `SUBM(A, B)` (R171): negative exactly when `A` < `B`. -/
def subMag (a b : Nat) : Int := (a : Int) - (b : Int)

/-- `MULM(A, B)` (R172): the check is on the true product. -/
def mulMag (a b : Nat) : Except CmdError Int := checkCap ((a * b : Nat) : Int)

/-- `DIVM(A, B)` (R173): the floor quotient and its remainder. -/
def divMag (a b : Nat) : Except CmdError (Nat × Nat) :=
  if b = 0 then .error .divideByZero else .ok (a / b, a % b)

/-- ADDM (R170). -/
def execAddm (d a b : Reg) (s : State) : Outcome :=
  commit [d] ((addMag (magOf s a) (magOf s b)).map ([·])) s

/-- SUBM (R171). -/
def execSubm (d a b : Reg) (s : State) : Outcome := commit [d] (.ok [subMag (magOf s a) (magOf s b)]) s

/-- MULM (R172). -/
def execMulm (d a b : Reg) (s : State) : Outcome :=
  commit [d] ((mulMag (magOf s a) (magOf s b)).map ([·])) s

/-- DIVM (R173): both results with sign +1. -/
def execDivm (q r a b : Reg) (s : State) : Outcome :=
  commit [q, r] ((divMag (magOf s a) (magOf s b)).map fun p => [(p.1 : Int), (p.2 : Int)]) s

end Sys2Proof.Machine
end

