-- ==== Sys2Proof/Machine/SignedWrapper.lean ====
section
/-! DEFINITION. The sign-dispatch wrapper: ADD, SUB, MUL, DIV (R190 to R194), as integer functions and as commands. -/

namespace Sys2Proof.Machine

/-- `ADD(x, y)` (R191). -/
def addInt (x y : Int) : Except CmdError Int := checkCap (x + y)

/-- `SUB(x, y)` (R192). -/
def subInt (x y : Int) : Except CmdError Int := checkCap (x - y)

/-- `MUL(x, y)` (R193). -/
def mulInt (x y : Int) : Except CmdError Int := checkCap (x * y)

/-- The sign of an integer as R9 writes it: -1 below zero, else +1. -/
def signOf (x : Int) : Int := if x < 0 then -1 else 1

/-- `DIV(x, y)` (R194): the quotient truncated toward zero and the remainder with the dividend's sign; `(0, x)` when |x| < |y|. -/
def divInt (x y : Int) : Except CmdError (Int × Int) :=
  if y.natAbs = 0 then .error .divideByZero
  else if x.natAbs < y.natAbs then .ok (0, x)
  else .ok (signOf x * signOf y * ((x.natAbs / y.natAbs : Nat) : Int), signOf x * ((x.natAbs % y.natAbs : Nat) : Int))

/-- ADD (R191). -/
def execAdd (d a b : Reg) (s : State) : Outcome := commit [d] ((addInt (valOf s a) (valOf s b)).map ([·])) s

/-- SUB (R192). -/
def execSub (d a b : Reg) (s : State) : Outcome := commit [d] ((subInt (valOf s a) (valOf s b)).map ([·])) s

/-- MUL (R193). -/
def execMul (d a b : Reg) (s : State) : Outcome := commit [d] ((mulInt (valOf s a) (valOf s b)).map ([·])) s

/-- DIV (R194). -/
def execDiv (q r a b : Reg) (s : State) : Outcome :=
  commit [q, r] ((divInt (valOf s a) (valOf s b)).map fun p => [p.1, p.2]) s

end Sys2Proof.Machine
end

