-- ==== Sys2Proof/Machine/Gcd.lean ====
section
/-! DEFINITION. The extended GCD engine: GCD (R220). -/

namespace Sys2Proof.Machine

/-- The three pairs of Euclid's loop (R220). They are working values of one command, not state (R44). -/
structure GcdPairs where
  oldR : Int
  r : Int
  oldS : Int
  s : Int
  oldT : Int
  t : Int
  deriving DecidableEq, Repr

/-- `new = old - q·current`, each product and difference checked (R220, D19). -/
def nextOf (old q current : Int) : Except CmdError Int :=
  match mulInt q current with
  | .error e => .error e
  | .ok p => subInt old p

/-- One pass of the loop body (R220): the quotient, then the three pairs in order; the first overflow ends it. -/
def gcdStep (p : GcdPairs) : Except CmdError GcdPairs :=
  match divInt p.oldR p.r with
  | .error e => .error e
  | .ok (q, _) =>
    match nextOf p.oldR q p.r with
    | .error e => .error e
    | .ok newR =>
      match nextOf p.oldS q p.s with
      | .error e => .error e
      | .ok newS =>
        match nextOf p.oldT q p.t with
        | .error e => .error e
        | .ok newT => .ok ⟨p.r, newR, p.s, newS, p.t, newT⟩

/-- The loop: while |r| ≠ 0 (R220). |r| falls in each pass, so |r| passes of fuel never run out (log entry 10). -/
def gcdLoop : Nat → GcdPairs → Except CmdError GcdPairs
  | 0, p => .ok p
  | n + 1, p =>
    if p.r.natAbs = 0 then .ok p
    else
      match gcdStep p with
      | .error e => .error e
      | .ok p' => gcdLoop n p'

/-- `gcd(a, b)` = (d, x, y) (R220): the final `oldR`, `oldS`, `oldT`. -/
def extendedGcd (a b : Int) : Except CmdError (List Int) :=
  (gcdLoop b.natAbs ⟨a, b, 1, 0, 0, 1⟩).map fun p => [p.oldR, p.oldS, p.oldT]

/-- GCD (R220). -/
def execGcd (d x y a b : Reg) (s : State) : Outcome := commit [d, x, y] (extendedGcd (valOf s a) (valOf s b)) s

end Sys2Proof.Machine
end

