-- ==== Sys2Proof/Machine/Modulo.lean ====
section
/-! DEFINITION. The modulo reducer: MOD (R210, R211). -/

namespace Sys2Proof.Machine

/-- `MOD(x, y)` (R210): the source's three branches, the signs ignored except where `x` is returned unchanged. -/
def modInt (x y : Int) : Except CmdError Int :=
  if y.natAbs = 0 then .error .divideByZero
  else if y.natAbs < x.natAbs then .ok ((x.natAbs % y.natAbs : Nat) : Int)
  else if x.natAbs = y.natAbs then .ok 0
  else .ok x

/-- MOD (R210). -/
def execMod (d a b : Reg) (s : State) : Outcome := commit [d] ((modInt (valOf s a) (valOf s b)).map ([·])) s

end Sys2Proof.Machine
end

