-- ==== Sys2Proof/Machine/ModPow.lean ====
section
/-! DEFINITION. The modular exponentiation engine: MODPOW (R230 to R233). -/

namespace Sys2Proof.Machine

/-- The working values of square-and-multiply (R230); not state (R44). -/
structure PowWork where
  answer : Int
  base : Int
  e : Nat
  deriving DecidableEq, Repr

/-- `MOD(MUL(x, y), M)`, the first failure reported (R230, R246). -/
def mulMod (x y m : Int) : Except CmdError Int :=
  match mulInt x y with
  | .error e => .error e
  | .ok p => modInt p m

/-- One pass of the loop (R230): multiply when the low exponent bit is set and clear that bit, square always, halve the exponent. -/
def powStep (m : Int) (p : PowWork) : Except CmdError PowWork :=
  match if p.e % 2 = 1 then mulMod p.answer p.base m else .ok p.answer with
  | .error e => .error e
  | .ok answer =>
    match mulMod p.base p.base m with
    | .error e => .error e
    | .ok base => .ok ⟨answer, base, (if p.e % 2 = 1 then p.e - 1 else p.e) / 2⟩

/-- The loop: while `e` ≠ 0 (R230). `e` at least halves in each pass, so `e` passes of fuel never run out (log entry 10). -/
def powLoop (m : Int) : Nat → PowWork → Except CmdError PowWork
  | 0, p => .ok p
  | n + 1, p =>
    if p.e = 0 then .ok p
    else
      match powStep m p with
      | .error e => .error e
      | .ok p' => powLoop m n p'

/-- `modPow(base, exponent, modulus)` (R230): the exponent's magnitude, the modulus tested before the loop. -/
def modPow (base : Int) (e : Nat) (m : Int) : Except CmdError Int :=
  if m.natAbs = 0 then .error .divideByZero else (powLoop m e ⟨1, base, e⟩).map (·.answer)

/-- MODPOW (R230). -/
def execModpow (d base exp mod : Reg) (s : State) : Outcome :=
  commit [d] ((modPow (valOf s base) (magOf s exp) (valOf s mod)).map ([·])) s

end Sys2Proof.Machine
end

