-- ==== Sys2Proof/Machine/Dispatch.lean ====
section
/-! DEFINITION. The meaning of every command, one arm per constructor. -/

namespace Sys2Proof.Machine

def exec (i : Instr) (s : State) : Host.Outcome State Fault Refusal :=
  match i with
  | .cmpm a b => Sys2Proof.Machine.execCmpm a b s
  | .eqmu a b => Sys2Proof.Machine.execEqmu a b s
  | .flipb d a => Sys2Proof.Machine.execFlipb d a s
  | .shw d a => Sys2Proof.Machine.execShw d a s
  | .shb d a => Sys2Proof.Machine.execShb d a s
  | .bor d a b => Sys2Proof.Machine.execBor d a b s
  | .band d a b => Sys2Proof.Machine.execBand d a b s
  | .bxor d a b => Sys2Proof.Machine.execBxor d a b s
  | .addm d a b => Sys2Proof.Machine.execAddm d a b s
  | .subm d a b => Sys2Proof.Machine.execSubm d a b s
  | .mulm d a b => Sys2Proof.Machine.execMulm d a b s
  | .divm q r a b => Sys2Proof.Machine.execDivm q r a b s
  | .add d a b => Sys2Proof.Machine.execAdd d a b s
  | .sub d a b => Sys2Proof.Machine.execSub d a b s
  | .mul d a b => Sys2Proof.Machine.execMul d a b s
  | .div q r a b => Sys2Proof.Machine.execDiv q r a b s
  | .mod d a b => Sys2Proof.Machine.execMod d a b s
  | .gcd d x y a b => Sys2Proof.Machine.execGcd d x y a b s
  | .modpow d base exp mod => Sys2Proof.Machine.execModpow d base exp mod s
  | .mov d a => Sys2Proof.Machine.execMov d a s
  | .ldu64 d neg => Sys2Proof.Machine.execLdu64 d neg s

end Sys2Proof.Machine
end

