-- ==== Sys2Proof/Machine/Window.lean ====
section
/-! DEFINITION. The host's register window (R60 to R68): the address map, the words read, the writes, and the reset pin. -/

namespace Sys2Proof.Machine

/-- What a word address names (R35, R61). -/
inductive Location where
  | cmd
  | status
  | ctrl
  | flags
  | arg0
  | arg1
  | errSticky
  | capacity
  | metaOf (k : Reg)
  | reserved
  | word (k : Reg) (i : Nat)
  deriving DecidableEq, Repr

/-- The address map: control registers at 0x0000 to 0x000F (R35), reserved to 0x0FFF, `B[k].w[i]` at 0x1000 + k·0x200 + i (R61). -/
def locate (a : Addr) : Location :=
  let n := a.toNat
  if n = 0 then .cmd
  else if n = 1 then .status
  else if n = 2 then .ctrl
  else if n = 3 then .flags
  else if n = 4 then .arg0
  else if n = 5 then .arg1
  else if n = 6 then .errSticky
  else if n = 7 then .capacity
  else if n < 0x10 then .metaOf (Fin.ofNat 8 (n - 8))
  else if n < 0x1000 then .reserved
  else .word (Fin.ofNat 8 ((n - 0x1000) / 0x200)) ((n - 0x1000) % 0x200)

/-- The value of `STATUS.ERR` (R37, R240). -/
def errCode : Option CmdError → Nat
  | none => 0
  | some e => e.code

/-- `STATUS` as read (R37): `BUSY` bit 0, `DONE` bit 1, `ERR` bits 7:4. -/
def statusWord (s : State) : Word := BitVec.ofNat 32 (s.busy.toNat + s.done.toNat * 2 + errCode s.err * 2 ^ 4)

/-- `FLAGS` as read (R34): `LT` bit 0, `EQ` bit 1, `GT` bit 2. -/
def flagsWord (f : Flags) : Word := BitVec.ofNat 32 (f.lt.toNat + f.eq.toNat * 2 + f.gt.toNat * 4)

/-- `ERRSTICKY` as read (R41). -/
def stickyWord (t : Sticky) : Word :=
  BitVec.ofNat 32 (t.capacityExceeded.toNat * 2 ^ 1 + t.divideByZero.toNat * 2 ^ 2 + t.bitIndexOutOfRange.toNat * 2 ^ 4
    + t.illegalCommand.toNat * 2 ^ 5 + t.busyViolation.toNat * 2 ^ 6)

/-- `METAk` as read (R42): `SG` bit 31, `TOP` bits 8:0. -/
def metaWord (r : BigNum) : Word := BitVec.ofNat 32 (r.sg.toNat * 2 ^ 31 + r.top.toNat)

/-- The interrupt output (R250): `STATUS.DONE` AND `CTRL.IE`. -/
def irq (s : State) : Bool := s.done && s.ie

/-- The word at a location (R62); `none` is any value (R62: a `META` or a BigNum word while busy). -/
def readLocation (s : State) : Location → Option Word
  | .cmd => some s.cmd
  | .status => some (statusWord s)
  | .ctrl => some (BitVec.ofNat 32 s.ie.toNat)
  | .flags => some (flagsWord s.flags)
  | .arg0 => some s.arg0
  | .arg1 => some s.arg1
  | .errSticky => some (stickyWord s.sticky)
  | .capacity => some (BitVec.ofNat 32 Config.cap)
  | .metaOf k => if s.busy then none else some (metaWord (s.reg k))
  | .reserved => some 0
  | .word k i => if s.busy then none else some ((s.reg k).word i)

/-- The port's read data takes an any value: a free value, and the count of those drawn advances (log entry 2). -/
def readAny (s : State) : State := { s with readData := Config.freeWord s.freeCount, freeCount := s.freeCount + 1 }

/-- `MemRead(a, 1)` (R11, R62): the block's state does not change; the word is the port's read data. -/
def hostRead (a : Addr) (s : State) : State :=
  match readLocation s (locate a) with
  | some v => { s with readData := v }
  | none => readAny s

/-- Accepting a command (R36, R98). -/
def accept (c : Word) (s : State) : State := { s with cmd := c, busy := true, done := false, err := none }

/-- A host write dropped because the block is busy: `ERRSTICKY` bit 6 and nothing else (R67, R251). -/
def dropBusy (s : State) : State := { s with sticky := { s.sticky with busyViolation := true } }

/-- A host write to a read-only BigNum location while busy: dropped; whether bit 6 is set is a free value, since R65 says no
error is recorded and R67 says that it is (log entry 3). -/
def dropReadOnlyBusy (s : State) : State :=
  { s with
    sticky := { s.sticky with busyViolation := s.sticky.busyViolation || Config.freeBit s.freeCount }
    freeCount := s.freeCount + 1 }

/-- `B[k].top` and `B[k].sg` from a word written to `METAk` (R42). -/
def setMeta (r : BigNum) (v : Word) : BigNum :=
  { r with top := BitVec.ofNat Config.idxW v.toNat, sg := v.getLsbD 31 }

/-- A write to `B[k]` through the window, by `f`: ignored for `B0` and `B1` (R65), dropped while busy (R67). -/
def writeBigNum (k : Reg) (f : BigNum → BigNum) (s : State) : State :=
  if 2 ≤ k.val then (if s.busy then dropBusy s else s.setReg k (f (s.reg k)))
  else (if s.busy then dropReadOnlyBusy s else s)

/-- Write one to clear (R41): the written bits cleared, the others kept. -/
def Sticky.clear (t : Sticky) (v : Word) : Sticky where
  capacityExceeded := t.capacityExceeded && !v.getLsbD 1
  divideByZero := t.divideByZero && !v.getLsbD 2
  bitIndexOutOfRange := t.bitIndexOutOfRange && !v.getLsbD 4
  illegalCommand := t.illegalCommand && !v.getLsbD 5
  busyViolation := t.busyViolation && !v.getLsbD 6

/-- A write to a location (R63, R65, R67; per register R34 to R42). -/
def writeLocation (s : State) (v : Word) : Location → State
  | .cmd => if s.busy then dropBusy s else accept v s
  | .status => if !s.busy && v.getLsbD 1 then { s with done := false } else s
  | .ctrl => { s with ie := v.getLsbD 0 }
  | .flags => s
  | .arg0 => if s.busy then dropBusy s else { s with arg0 := v }
  | .arg1 => if s.busy then dropBusy s else { s with arg1 := v }
  | .errSticky => { s with sticky := s.sticky.clear v }
  | .capacity => s
  | .metaOf k => writeBigNum k (fun r => setMeta r v) s
  | .reserved => s
  | .word k i => writeBigNum k (fun r => r.setWord i v) s

/-- `MemWrite(a, 1, v)` (R11, R63). -/
def hostWrite (a : Addr) (v : Word) (s : State) : State := writeLocation s v (locate a)

/-- A clock edge with `rst` at 1 (R280, R281): all the block's state takes its reset values and a command in flight is abandoned.
The pin, the port's read data and the model's own fields are not the block's. -/
def clockReset (s : State) : State :=
  { State.reset with rst := s.rst, readData := s.readData, turns := s.turns, freeCount := s.freeCount }

/-- A host access while `rst` is low. -/
def hostAccess : HostAccess → State → State
  | .memRead a, s => hostRead a s
  | .memWrite a v, s => hostWrite a v s
  | .setRst true, s => clockReset { s with rst := true }
  | .setRst false, s => s

/-- A turn while `rst` is high (R280): the block is held at its reset values, writes are dropped without a sticky bit, reads return
any value, and lowering the pin leaves the block idle. -/
def turnInReset : Turn → State → State
  | .host (.memRead _), s => readAny (clockReset s)
  | .host (.memWrite _ _), s => clockReset s
  | .host (.setRst level), s => { clockReset s with rst := level }
  | .block, s => clockReset s

end Sys2Proof.Machine
end

