-- ==== Sys2Proof/Machine/Turns.lean ====
section
/-! DEFINITION. Whose turn it is (R6) and what the turn does: completing the command in flight (R98), a host access, an edge in reset. -/

namespace Sys2Proof.Machine

/-- Completing the command in flight (R98, R99): the word in `CMD` decoded and run, or `IllegalCommand` when it is no command. -/
def complete (s : State) : Outcome :=
  match decode s.cmd with
  | .error _ => .next (raise .illegalCommand s)
  | .ok i => exec i s

/-- One turn. A block turn with no command in flight changes nothing (R258). -/
def takeTurn (t : Turn) (s : State) : Outcome :=
  if s.rst then .next (turnInReset t s)
  else
    match t with
    | .host h => .next (hostAccess h s)
    | .block => if s.busy then complete s else .next s

/-- The next turn of the schedule; when none is left it is the block's, so that a command in flight always completes (R98, R293). -/
def nextTurn (s : State) : Outcome :=
  match s.turns with
  | [] => takeTurn .block s
  | t :: rest => takeTurn t { s with turns := rest }

/-- `s` with a command word accepted and the block's turn next: the word stands where the block fetches (R33, R36, R44).
Bits of `w` from `nbits` on are 0. -/
def loadCommand (s : State) (nbits w : Nat) : State :=
  { accept (BitVec.ofNat 32 (w % 2 ^ nbits)) s with rst := false, turns := .block :: s.turns }

end Sys2Proof.Machine
end

