-- ==== Sys2Proof/Machine/Step.lean ====
section
/-! DEFINITION. One step of the machine, and placing a command where the next step runs it. -/

namespace Sys2Proof.Machine

/-- One step: the next turn of the schedule (log entry 1). -/
def step (s : State) : Host.Outcome State Fault Refusal := nextTurn s

/-- `s` with the command of an opcode-table word in flight, so that the next step runs it (log entry 6). -/
def State.withFetchWord (s : State) (nbits w : Nat) : State := loadCommand s nbits w

end Sys2Proof.Machine
end

