-- ==== Sys2Proof/Machine/HostSoftware.lean ====
section
/-! DEFINITION. Host software outside the block, so that host programs can be written: pseudo-commands (R102), the host macros
(R103), fromWords (R120), fromHex (R123). Nothing here is used by `step`. -/

namespace Sys2Proof.Machine

/-- `CLR Bd` = `MOV Bd, B0` (R102). -/
def clr (d : Reg) : Instr := .mov d 0

/-- `SETONE Bd` = `MOV Bd, B1` (R102). -/
def setone (d : Reg) : Instr := .mov d 1

/-- `SQR Bd, Ba` = `MUL Bd, Ba, Ba` (R102). -/
def sqr (d a : Reg) : Instr := .mul d a a

/-- `ISZERO Ba` = `EQMU Ba, B0` (R102). -/
def iszero (a : Reg) : Instr := .eqmu a 0

/-- The host writes `v` at `a`. -/
def writeAt (a : Nat) (v : Word) : Turn := .host (.memWrite (BitVec.ofNat 13 a) v)

/-- The host reads at `a`. -/
def readAt (a : Nat) : Turn := .host (.memRead (BitVec.ofNat 13 a))

/-- The address of `B[k].w[i]` (R61). -/
def wordAddr (k : Reg) (i : Nat) : Nat := 0x1000 + k.val * 0x200 + i

/-- The address of `METAk` (R35). -/
def metaAddr (k : Reg) : Nat := 0x0008 + k.val

/-- `LOADW Bk, sign, [w0, ..., wt]`, the source's fromWords (R103, R120). -/
def loadW (k : Reg) (neg : Bool) (ws : List Word) : List Turn :=
  ws.zipIdx.map (fun p => writeAt (wordAddr k p.2) p.1)
    ++ [writeAt (metaAddr k) (BitVec.ofNat 32 (neg.toNat * 2 ^ 31 + (ws.length - 1)))]

/-- `WAIT` (R103): `n` polls of `STATUS` that find the block busy, its completion, and the poll that sees `DONE`. -/
def waitDone (n : Nat) : List Turn := List.replicate n (readAt 1) ++ [.block, readAt 1]

/-- `READ Bk` (R103), for a register whose `top` the host has found to be `top`. -/
def readOut (k : Reg) (top : Nat) : List Turn :=
  readAt (metaAddr k) :: (List.range (top + 1)).map fun i => readAt (wordAddr k i)

/-- Issuing a command: the `CMD` write and the wait (R101). -/
def issue (i : Instr) (n : Nat) : List Turn := writeAt 0 (encode i) :: waitDone n

/-- How host software can fail (R123, R240, R243). -/
inductive HostError where
  /-- code 3: a non-hex character or an empty literal -/
  | malformedLiteral
  /-- more than `CAP` words -/
  | capacityExceeded
  deriving DecidableEq, Repr

/-- A hex digit's value, both cases (R123, D33). -/
def hexDigit (c : Char) : Option Nat :=
  if '0' ≤ c ∧ c ≤ '9' then some (c.toNat - '0'.toNat)
  else if 'a' ≤ c ∧ c ≤ 'f' then some (c.toNat - 'a'.toNat + 10)
  else if 'A' ≤ c ∧ c ≤ 'F' then some (c.toNat - 'A'.toNat + 10)
  else none

/-- The value of a digit string, most significant digit first. -/
def hexValue (ds : List Nat) : Nat := ds.foldl (fun v d => 16 * v + d) 0

/-- The j-th group of 8 digits from the right (R123). -/
def hexGroup (ds : List Nat) (j : Nat) : List Nat :=
  (ds.drop (ds.length - 8 * (j + 1))).take (ds.length - 8 * j - (ds.length - 8 * (j + 1)))

/-- `fromHex(digits)` (R123): the words, least significant first. -/
def fromHex (digits : List Char) : Except HostError (List Word) :=
  match digits.mapM hexDigit with
  | none => .error .malformedLiteral
  | some [] => .error .malformedLiteral
  | some (d :: ds) =>
    let t := (ds.length + 8) / 8 - 1
    if Config.cap - 1 < t then .error .capacityExceeded
    else .ok ((List.range (t + 1)).map fun j => BitVec.ofNat 32 (hexValue (hexGroup (d :: ds) j)))

/-- `LOADHEX Bk, sign, digits` (R103). -/
def loadHex (k : Reg) (neg : Bool) (digits : List Char) : Except HostError (List Turn) :=
  (fromHex digits).map (loadW k neg)

end Sys2Proof.Machine
end

