-- ==== Sys2Proof/Machine/Algorithms.lean ====
section
/-! DEFINITION. The source's word-level and bit-level algorithms, as the rules give them beside the integer functions the meanings
use (R140, R153, R170 to R173, R190). Nothing here is used by `step`; statements compare the two forms. -/

namespace Sys2Proof.Machine

/-- The word loop of compareMagnitude, from word i down to 0 (R140). -/
def compareWordsFrom (a b : BigNum) : Nat → Ordering
  | 0 => compare (a.word 0).toNat (b.word 0).toNat
  | i + 1 =>
    if (b.word (i + 1)).toNat < (a.word (i + 1)).toNat then .gt
    else if (a.word (i + 1)).toNat < (b.word (i + 1)).toNat then .lt
    else compareWordsFrom a b i

/-- compareMagnitude on trimmed operands: the tops first, then the words (R140). -/
def compareByWords (a b : BigNum) : Ordering :=
  if b.etop < a.etop then .gt
  else if a.etop < b.etop then .lt
  else compareWordsFrom a b a.etop

/-- Ripple-carry addition of the pairs of words, lowest first: the words out and the carry out (R170). -/
def rippleAdd : List (Word × Word) → Nat → List Word × Nat
  | [], c => ([], c)
  | (x, y) :: rest, c =>
    let t := x.toNat + y.toNat + c
    let (out, cout) := rippleAdd rest (t / 2 ^ 32)
    (BitVec.ofNat 32 t :: out, cout)

/-- Borrow subtraction of the pairs of words, lowest first: the words out and the borrow out (R171). -/
def rippleSub : List (Word × Word) → Nat → List Word × Nat
  | [], c => ([], c)
  | (x, y) :: rest, c =>
    let t : Int := (x.toNat : Int) - y.toNat - c
    let (out, cout) := rippleSub rest (if t < 0 then 1 else 0)
    (BitVec.ofInt 32 t :: out, cout)

/-- The words of two operands side by side, i = 0 .. t, words above an operand's own top counting as 0 (R141, R170). -/
def wordPairs (a b : BigNum) (t : Nat) : List (Word × Word) :=
  (List.range (t + 1)).map fun i => (a.liveWord i, b.liveWord i)

/-- Schoolbook multiplication: the partial products of one word of `a`, then the running total (R172). -/
def schoolbook (a b : BigNum) : Nat :=
  ((List.range (a.etop + 1)).map fun i =>
    ((List.range (b.etop + 1)).map fun j => (a.word i).toNat * (b.word j).toNat * 2 ^ (32 * j)).sum * 2 ^ (32 * i)).sum

/-- The restoring divider's loop on (remainder, quotient accumulator) for divisor `d` (R173). -/
def restoreLoop (d : Nat) : Nat → Nat × Nat → Nat × Nat
  | 0, p => p
  | n + 1, (rm, qm) =>
    if rm < d then (rm, qm)
    else
      let k := rm.log2 - d.log2
      let part := d * 2 ^ k
      if part < rm then restoreLoop d n (rm - part, qm ^^^ 2 ^ k)
      else if rm = part then restoreLoop d n (0, qm ^^^ 2 ^ k)
      else restoreLoop d n (rm - part / 2, qm ^^^ 2 ^ (k - 1))

/-- divMagnitudes by restoring shift and subtract: (quotient, remainder) (R173). The remainder falls in each pass (R174). -/
def restoringDivide (a d : Nat) : Nat × Nat :=
  let p := restoreLoop d a (a, 0)
  (p.2, p.1)

/-- `ADD` by the dispatch table on the two signs, true for -1 (R190). -/
def dispatchAdd (sa sb : Bool) (a b : Nat) : Int :=
  match sa, sb with
  | false, false => ((a + b : Nat) : Int)
  | false, true => subMag a b
  | true, false => subMag b a
  | true, true => -((a + b : Nat) : Int)

/-- `SUB` by the dispatch table (R190). -/
def dispatchSub (sa sb : Bool) (a b : Nat) : Int :=
  match sa, sb with
  | false, false => subMag a b
  | false, true => ((a + b : Nat) : Int)
  | true, false => -((a + b : Nat) : Int)
  | true, true => subMag b a

/-- `MUL` by the dispatch table (R190). -/
def dispatchMul (sa sb : Bool) (a b : Nat) : Int :=
  match sa, sb with
  | false, false => ((a * b : Nat) : Int)
  | false, true => -((a * b : Nat) : Int)
  | true, false => -((a * b : Nat) : Int)
  | true, true => ((a * b : Nat) : Int)

/-- `DIV`'s quotient and remainder by the dispatch table (R190). -/
def dispatchDiv (sa sb : Bool) (a b : Nat) : Int × Int :=
  match sa, sb with
  | false, false => (((a / b : Nat) : Int), ((a % b : Nat) : Int))
  | false, true => (-((a / b : Nat) : Int), ((a % b : Nat) : Int))
  | true, false => (-((a / b : Nat) : Int), -((a % b : Nat) : Int))
  | true, true => (((a / b : Nat) : Int), -((a % b : Nat) : Int))

/-- The `top` of a left bit shift by n = 32·q + r of a non-zero operand, by the carry-word decision (R153). -/
def shiftedTop (a : BigNum) (n : Nat) : Nat :=
  if 0 < n % 32 ∧ 2 ^ (32 - n % 32) ≤ (a.word a.etop).toNat then a.etop + n / 32 + 1 else a.etop + n / 32

end Sys2Proof.Machine
end

