-- ==== Sys2Proof/Safety.lean ====
section
/-! DEFINITION. The terms statements are made in: canonical registers (R10, R12, R25), what a completed command leaves (R98),
what a failed one leaves (R247), and the invariant of the status bits and the reset pin (R37, R280). -/

namespace Sys2Proof.Machine

/-- Canonical (R12, R25, R26): the top word non-zero, or the value zero with `top` 0 and sign +1; every word above `top` zero. -/
abbrev BigNum.Canonical (r : BigNum) : Prop :=
  (r.word r.top.toNat ≠ 0 ∨ (r.top = 0 ∧ r.word 0 = 0 ∧ r.sg = false)) ∧ ∀ i < Config.cap, r.top.toNat < i → r.word i = 0

/-- The register holds the integer `v` in canonical form: what `B[k] <- v` leaves (R8). -/
abbrev BigNum.Holds (r : BigNum) (v : Int) : Prop := r.Canonical ∧ r.val = v

/-- Everything a command never writes, whatever its outcome: `CMD`, `CTRL`, `ARG0`, `ARG1` (R247), the pin, the port's read data,
the schedule and the model's counter. -/
def Untouched (s t : State) : Prop :=
  t.cmd = s.cmd ∧ t.ie = s.ie ∧ t.arg0 = s.arg0 ∧ t.arg1 = s.arg1 ∧ t.rst = s.rst ∧ t.readData = s.readData
    ∧ t.turns = s.turns ∧ t.freeCount = s.freeCount

/-- Completion without error (R98): `ERR` 0, `BUSY` 0, `DONE` 1, no sticky bit changed (R41). -/
def CompletedOk (s t : State) : Prop :=
  t.busy = false ∧ t.done = true ∧ t.err = none ∧ t.sticky = s.sticky ∧ Untouched s t

/-- From `s` a command completed into `t` having written exactly these destinations with these values: every other register and
`FLAGS` as before (R98). -/
def Wrote (s t : State) (results : List (Reg × Int)) : Prop :=
  (∀ p ∈ results, (t.reg p.1).Holds p.2) ∧ (∀ k, k ∉ results.map (·.1) → t.reg k = s.reg k) ∧ t.flags = s.flags
    ∧ CompletedOk s t

/-- From `s` a comparison completed into `t` with these flags: every register as before (R98). -/
def WroteFlags (s t : State) (f : Flags) : Prop := t.flags = f ∧ (∀ k, t.reg k = s.reg k) ∧ CompletedOk s t

/-- From `s` a command failed into `t` with `e`: the four status updates of R247, every register and `FLAGS` as before. -/
def Failed (e : CmdError) (s t : State) : Prop :=
  t.err = some e ∧ t.sticky = s.sticky.record e ∧ t.busy = false ∧ t.done = true ∧ (∀ k, t.reg k = s.reg k)
    ∧ t.flags = s.flags ∧ Untouched s t

/-- The outcome is a next state with this property. -/
def Answers (o : Outcome) (P : State → Prop) : Prop := ∃ t, o = .next t ∧ P t

/-- A command is in flight, `rst` is low, and the next turn is the block's: the next step completes the command. -/
abbrev BlockCompletesNext (s : State) : Prop :=
  s.busy = true ∧ s.rst = false ∧ (s.turns = [] ∨ s.turns.head? = some .block)

/-- No command is in flight, `rst` is low, and the next turn is the block's: it has nothing to do (R258). -/
abbrev BlockIdlesNext (s : State) : Prop :=
  s.busy = false ∧ s.rst = false ∧ (s.turns = [] ∨ s.turns.head? = some .block)

/-- `s` with its next turn taken off the schedule. -/
def afterTurn (s : State) : State := { s with turns := s.turns.tail }

/-- The next turn of the schedule is this one, and `rst` is low. -/
abbrev NextTurnIs (s : State) (u : Turn) : Prop := s.rst = false ∧ s.turns.head? = some u

/-- Everything but the BigNum registers and the schedule is as before. -/
def ControlUnchanged (s t : State) : Prop :=
  t.cmd = s.cmd ∧ t.busy = s.busy ∧ t.done = s.done ∧ t.err = s.err ∧ t.ie = s.ie ∧ t.flags = s.flags ∧ t.arg0 = s.arg0
    ∧ t.arg1 = s.arg1 ∧ t.sticky = s.sticky ∧ t.rst = s.rst ∧ t.readData = s.readData ∧ t.freeCount = s.freeCount

/-- The legal status: `BUSY` and `DONE` never both 1 (R37), no error code while busy (R98), and the block at its reset values
while `rst` is high (R280). -/
def StatusInv (s : State) : Prop :=
  ¬(s.busy = true ∧ s.done = true) ∧ (s.busy = true → s.err = none) ∧ (s.rst = true → clockReset s = s)

/-- Two states that commands cannot tell apart (R31): the same `ARG0` and `ARG1`, and in every register the same sign bit and
magnitude; the words above `top`, `top` itself and everything else may differ. -/
def Alike (s s' : State) : Prop :=
  s.arg0 = s'.arg0 ∧ s.arg1 = s'.arg1 ∧ ∀ k, (s.reg k).sg = (s'.reg k).sg ∧ (s.reg k).mag = (s'.reg k).mag

/-- What MOD leaves of `x` for a non-zero modulus `m`: the three branches of R210. -/
def reduced (x m : Int) : Int :=
  if m.natAbs < x.natAbs then ((x.natAbs % m.natAbs : Nat) : Int) else if x.natAbs = m.natAbs then 0 else x

/-- The register a command divides by, if it divides (R242). -/
def divisorOf : Instr → Option Reg
  | .divm _ _ _ b => some b
  | .div _ _ _ b => some b
  | .mod _ _ b => some b
  | .modpow _ _ _ m => some m
  | _ => none

/-- The bit index or shift amount of a command is beyond the capacity (R244). -/
def amountOutOfRange (s : State) : Instr → Prop
  | .flipb _ _ => 32 * Config.cap ≤ bitIndex s
  | .shw _ _ => (Config.cap : Int) ≤ shiftAmount s
  | .shb _ _ => ((32 * Config.cap : Nat) : Int) ≤ shiftAmount s
  | _ => False

/-- The turns of a host, one after the other, from a state: what the schedule does when nothing else is in it. -/
def runTurns : List Turn → State → Outcome
  | [], s => .next s
  | t :: ts, s =>
    match takeTurn t s with
    | .next s' => runTurns ts s'
    | o => o

end Sys2Proof.Machine
end

