-- ==== Sys2Proof/Certificates/Slice0/Obligations.lean ====
section
/-! DEFINITION. The statements for the provers, each from the rules its docstring cites. -/

open Sys2Proof Sys2Proof.Machine

/-! ### Encoding -/

/-- R91, R92, R93: the decoder reads back every command from its word, with every operand at every value of its field. -/
def Obligations.DecodeOfEncodeIsTheCommand : Prop := ∀ i : Instr, decode (encode i) = .ok i

/-- R90, R92, R96: a word that decodes is the one word of its command, so every unused field of it is 0. -/
def Obligations.EncodeOfDecodeIsTheWord : Prop := ∀ (w : Word) (i : Instr), decode w = .ok i → encode i = w

/-- R104: the worked encodings, legal and illegal. -/
def Obligations.WorkedEncodingsAreDecoded : Prop :=
  decode 0x60972600 = .ok (.gcd 4 5 6 2 3) ∧ decode 0x70A02700 = .ok (.modpow 5 2 3 4) ∧ decode 0x10002600 = .ok (.cmpm 2 3)
    ∧ decode 0x43942600 = .ok (.div 4 5 2 3) ∧ decode 0x40802600 = .ok (.add 4 2 3) ∧ decode 0x80401000 = .ok (.mov 2 1)
    ∧ decode 0x81400000 = .ok (.ldu64 2 false) ∧ decode 0x81400001 = .ok (.ldu64 2 true) ∧ decode 0x20602000 = .ok (.flipb 3 2)
    ∧ decode 0x00000000 = .error .unknownOpcode ∧ decode 0x10002601 = .error .unusedFieldSet
    ∧ decode 0x40802640 = .error .unusedFieldSet
    ∧ decode 0x43902600 = .ok (.div 4 4 2 3) ∧ (Instr.div 4 4 2 3).wf = false
    ∧ decode 0x40002600 = .ok (.add 0 2 3) ∧ (Instr.add 0 2 3).wf = false

/-- R98, R99, R258: the step that completes a command is `complete`, which is the command's meaning when its word decodes; a block
turn with no command in flight changes nothing; the step of a host access is the access, and lowering a low `rst` changes nothing.
Around them the step only takes the turn off the schedule, which is the model's own (log entry 1). -/
def Obligations.BlockTurnRunsTheDecodedCommand : Prop :=
  (∀ s : State, BlockCompletesNext s →
    step s = complete (afterTurn s) ∧ ∀ i : Instr, decode s.cmd = .ok i → step s = exec i (afterTurn s)) ∧
  (∀ s : State, BlockIdlesNext s → step s = .next (afterTurn s)) ∧
  (∀ (s : State) (h : HostAccess), NextTurnIs s (.host h) → step s = .next (hostAccess h (afterTurn s))) ∧
  (∀ s : State, NextTurnIs s (.host (.setRst false)) → step s = .next (afterTurn s))

/-- R245: a completing command raises `IllegalCommand` exactly when its word is not the word of a command that meets R97. -/
def Obligations.IllegalCommandExactly : Prop :=
  ∀ s : State,
    Answers (complete s) fun t =>
      (t.err = some .illegalCommand ↔ ¬ ∃ i : Instr, i.wf = true ∧ encode i = s.cmd)
        ∧ (t.err = some .illegalCommand → Failed .illegalCommand s t)

/-- R95: a word whose opcode byte is not listed completes with `IllegalCommand` and does nothing else; the all-zero word is one. -/
def Obligations.UnlistedOpcodesAreIllegal : Prop :=
  (∀ s : State, BlockCompletesNext s →
    s.cmd.toNat / 2 ^ 24 ∉ [0x10, 0x11, 0x20, 0x21, 0x22, 0x23, 0x24, 0x25, 0x30, 0x31, 0x32, 0x33, 0x40, 0x41, 0x42, 0x43, 0x50,
      0x60, 0x70, 0x80, 0x81] →
    Answers (step s) (Failed .illegalCommand (afterTurn s))) ∧
  (∀ s : State, BlockCompletesNext s → s.cmd = 0 → Answers (step s) (Failed .illegalCommand (afterTurn s)))

/-- R97: a command raises `IllegalCommand` exactly when a used destination is `B0` or `B1` or two of them coincide; nothing is
asked of its sources. -/
def Obligations.DestinationConstraintsExactly : Prop :=
  ∀ (i : Instr) (s : State),
    Answers (exec i s) fun t =>
      (t.err = some .illegalCommand ↔ ((∃ d ∈ i.dests, d.val < 2) ∨ ¬ i.dests.Nodup))
        ∧ (t.err = some .illegalCommand → Failed .illegalCommand s t)

/-! ### What each command computes, and its frame (`Wrote`, `WroteFlags`: every other register, the flags and all else as before) -/

/-- R121: MOV writes the source's value. -/
def Obligations.MovCopiesTheValue : Prop :=
  ∀ (d a : Reg) (s : State), (Instr.mov d a).wf = true →
    Answers (exec (.mov d a) s) (Wrote s · [(d, valOf s a)])

/-- R122: LDU64 writes the 64-bit value of `ARG1`:`ARG0` with the command's sign; its two words and its `top` are as the rule says. -/
def Obligations.LduLoadsTheSignedValue : Prop :=
  ∀ (d : Reg) (neg : Bool) (s : State), (Instr.ldu64 d neg).wf = true →
    Answers (exec (.ldu64 d neg) s) fun t =>
      Wrote s t [(d, (if neg then -1 else 1) * ((s.arg1.toNat * 2 ^ 32 + s.arg0.toNat : Nat) : Int))]
        ∧ (t.reg d).word 0 = s.arg0 ∧ (t.reg d).word 1 = s.arg1 ∧ (t.reg d).top = (if s.arg1 = 0 then 0 else 1)

/-- R140: CMPM sets exactly one of `LT`, `EQ`, `GT`, by the order of the magnitudes. -/
def Obligations.CmpmOrdersMagnitudes : Prop :=
  ∀ (a b : Reg) (s : State),
    Answers (exec (.cmpm a b) s)
      (WroteFlags s · ⟨decide (magOf s a < magOf s b), decide (magOf s a = magOf s b), decide (magOf s b < magOf s a)⟩)

/-- R141: EQMU sets `EQ` to whether the magnitudes are equal, and clears `LT` and `GT`, also on operands that are not normalised. -/
def Obligations.EqmuTestsMagnitudeEquality : Prop :=
  ∀ (a b : Reg) (s : State),
    Answers (exec (.eqmu a b) s) (WroteFlags s · ⟨false, decide (magOf s a = magOf s b), false⟩)

/-- R151: FLIPB with an index inside the capacity writes sgn·(mag XOR 2^index). -/
def Obligations.FlipbTogglesOneBit : Prop :=
  ∀ (d a : Reg) (s : State), (Instr.flipb d a).wf = true → s.arg0.toNat < 32 * Config.cap →
    Answers (exec (.flipb d a) s) (Wrote s · [(d, sgnOf s a * ((magOf s a ^^^ 2 ^ s.arg0.toNat : Nat) : Int))])

/-- R152: SHW shifts the magnitude by whole words: up when the result fits, down for every negative amount. -/
def Obligations.ShwShiftsWholeWords : Prop :=
  ∀ (d a : Reg) (s : State), (Instr.shw d a).wf = true →
    (0 ≤ s.arg0.toInt → s.arg0.toInt < Config.cap → magOf s a * 2 ^ (32 * s.arg0.toInt.toNat) < Config.maxMag →
      Answers (exec (.shw d a) s) (Wrote s · [(d, sgnOf s a * ((magOf s a * 2 ^ (32 * s.arg0.toInt.toNat) : Nat) : Int))])) ∧
    (s.arg0.toInt < 0 →
      Answers (exec (.shw d a) s) (Wrote s · [(d, sgnOf s a * ((magOf s a / 2 ^ (32 * (-s.arg0.toInt).toNat) : Nat) : Int))]))

/-- R153: SHB shifts the magnitude by bits: up when the result fits, down for every negative amount. Shifting up a non-zero
operand leaves the `top` of the source's carry-word decision. -/
def Obligations.ShbShiftsBits : Prop :=
  ∀ (d a : Reg) (s : State), (Instr.shb d a).wf = true →
    (0 ≤ s.arg0.toInt → s.arg0.toInt < (32 * Config.cap : Nat) → magOf s a * 2 ^ s.arg0.toInt.toNat < Config.maxMag →
      Answers (exec (.shb d a) s) fun t =>
        Wrote s t [(d, sgnOf s a * ((magOf s a * 2 ^ s.arg0.toInt.toNat : Nat) : Int))]
          ∧ (magOf s a ≠ 0 → (t.reg d).top.toNat = shiftedTop (s.reg a) s.arg0.toInt.toNat)) ∧
    (s.arg0.toInt < 0 →
      Answers (exec (.shb d a) s) (Wrote s · [(d, sgnOf s a * ((magOf s a / 2 ^ (-s.arg0.toInt).toNat : Nat) : Int))]))

/-- R154, R155, R156: BOR, BAND and BXOR write the bitwise result of the magnitudes with sign +1. -/
def Obligations.LogicActsOnMagnitudes : Prop :=
  ∀ (d a b : Reg) (s : State), 2 ≤ d.val →
    Answers (exec (.bor d a b) s) (Wrote s · [(d, ((magOf s a ||| magOf s b : Nat) : Int))]) ∧
    Answers (exec (.band d a b) s) (Wrote s · [(d, ((magOf s a &&& magOf s b : Nat) : Int))]) ∧
    Answers (exec (.bxor d a b) s) (Wrote s · [(d, ((magOf s a ^^^ magOf s b : Nat) : Int))])

/-- R170, R172: ADDM and MULM write the sum and the product of the magnitudes when they fit, up to exactly `CAP` words. -/
def Obligations.UnsignedSumAndProduct : Prop :=
  ∀ (d a b : Reg) (s : State), 2 ≤ d.val →
    (magOf s a + magOf s b < Config.maxMag →
      Answers (exec (.addm d a b) s) (Wrote s · [(d, ((magOf s a + magOf s b : Nat) : Int))])) ∧
    (magOf s a * magOf s b < Config.maxMag →
      Answers (exec (.mulm d a b) s) (Wrote s · [(d, ((magOf s a * magOf s b : Nat) : Int))]))

/-- R171: SUBM writes the difference of the magnitudes, negative exactly when the first is smaller. -/
def Obligations.SubmWritesTheSignedDifference : Prop :=
  ∀ (d a b : Reg) (s : State), (Instr.subm d a b).wf = true →
    Answers (exec (.subm d a b) s) (Wrote s · [(d, (magOf s a : Int) - (magOf s b : Int))])

/-- R173: DIVM with a non-zero divisor writes the floor quotient and the remainder of the magnitudes, both with sign +1. -/
def Obligations.DivmFloorQuotientAndRemainder : Prop :=
  ∀ (q r a b : Reg) (s : State), (Instr.divm q r a b).wf = true → magOf s b ≠ 0 →
    Answers (exec (.divm q r a b) s)
      (Wrote s · [(q, ((magOf s a / magOf s b : Nat) : Int)), (r, ((magOf s a % magOf s b : Nat) : Int))])

/-- R191, R192, R193: ADD, SUB and MUL write the integer sum, difference and product when the magnitude fits. -/
def Obligations.SignedSumDifferenceProduct : Prop :=
  ∀ (d a b : Reg) (s : State), 2 ≤ d.val →
    ((valOf s a + valOf s b).natAbs < Config.maxMag →
      Answers (exec (.add d a b) s) (Wrote s · [(d, valOf s a + valOf s b)])) ∧
    ((valOf s a - valOf s b).natAbs < Config.maxMag →
      Answers (exec (.sub d a b) s) (Wrote s · [(d, valOf s a - valOf s b)])) ∧
    ((valOf s a * valOf s b).natAbs < Config.maxMag →
      Answers (exec (.mul d a b) s) (Wrote s · [(d, valOf s a * valOf s b)]))

/-- R194: DIV with a non-zero divisor: (0, a) when |a| < |b|, else the quotient truncated toward zero and the remainder with the
sign of a; in both cases a = q·b + r and |r| < |b|. -/
def Obligations.DivTruncatesTowardZero : Prop :=
  ∀ (q r a b : Reg) (s : State), (Instr.div q r a b).wf = true → magOf s b ≠ 0 →
    ∃ qv rv : Int,
      Answers (exec (.div q r a b) s) (Wrote s · [(q, qv), (r, rv)]) ∧
      (magOf s a < magOf s b → qv = 0 ∧ rv = valOf s a) ∧
      (magOf s b ≤ magOf s a →
        qv = sgnOf s a * sgnOf s b * ((magOf s a / magOf s b : Nat) : Int) ∧ rv = sgnOf s a * ((magOf s a % magOf s b : Nat) : Int)) ∧
      valOf s a = qv * valOf s b + rv ∧ rv.natAbs < magOf s b

/-- R210, R211: MOD with a non-zero modulus, the three branches, the signs ignored except where a is returned unchanged. -/
def Obligations.ModTakesTheThreeBranches : Prop :=
  ∀ (d a b : Reg) (s : State), (Instr.mod d a b).wf = true → magOf s b ≠ 0 →
    Answers (exec (.mod d a b) s)
      (Wrote s · [(d, if magOf s b < magOf s a then ((magOf s a % magOf s b : Nat) : Int)
                      else if magOf s a = magOf s b then 0 else valOf s a)])

/-- R220, R221: GCD on every pair of operands completes with the triple of `extendedGcd`, for which d = a·x + b·y and
|d| = gcd(|a|, |b|); for b = 0 it is (a, 1, 0). The sign of d and the pair (x, y) are fixed by GcdTripleFollowsEuclid. That no
operand overflows it is the model's finding, not the spec's: R220 says that GCD can raise `CapacityExceeded` (log entry 11). -/
def Obligations.GcdWritesBezoutTriple : Prop :=
  ∀ (d x y a b : Reg) (s : State), (Instr.gcd d x y a b).wf = true →
    ∃ g u v : Int,
      extendedGcd (valOf s a) (valOf s b) = .ok [g, u, v] ∧
      Answers (exec (.gcd d x y a b) s) (Wrote s · [(d, g), (x, u), (y, v)]) ∧
      g = valOf s a * u + valOf s b * v ∧ g.natAbs = Nat.gcd (magOf s a) (magOf s b) ∧
      (magOf s b = 0 → g = valOf s a ∧ u = 1 ∧ v = 0)

/-- R220: which triple: for b ≠ 0 the triple of (a, b) is that of (b, a − q·b) with the coefficients rotated by the truncated
quotient q; with the case b = 0 this fixes every triple, and GcdWritesBezoutTriple says that GCD writes it. That both triples are
answered for all operands below `MAXMAG`, near the capacity too, is the model's finding (log entry 11), not R220's. -/
def Obligations.GcdTripleFollowsEuclid : Prop :=
  ∀ a b : Int, b ≠ 0 → a.natAbs < Config.maxMag → b.natAbs < Config.maxMag →
    ∃ g u v : Int, extendedGcd b (a - a.tdiv b * b) = .ok [g, u, v] ∧ extendedGcd a b = .ok [g, v, u - a.tdiv b * v]

/-- R231: MODPOW on the textbook domain writes base^e mod modulus. The two bounds keep every product within the capacity (R230). -/
def Obligations.ModpowIsModularPower : Prop :=
  ∀ (d base exp m : Reg) (s : State), (Instr.modpow d base exp m).wf = true →
    0 ≤ valOf s base → 0 < valOf s m → 0 < magOf s exp →
    valOf s base * valOf s base < Config.maxMag → valOf s m * valOf s m ≤ Config.maxMag →
    Answers (exec (.modpow d base exp m) s) (Wrote s · [(d, valOf s base ^ magOf s exp % valOf s m)])

/-- R230: with an exponent of zero magnitude MODPOW writes 1 for every non-zero modulus, also ±1, whatever the base. -/
def Obligations.ModpowOfZeroExponentIsOne : Prop :=
  ∀ (d base exp m : Reg) (s : State), (Instr.modpow d base exp m).wf = true → magOf s exp = 0 → magOf s m ≠ 0 →
    Answers (exec (.modpow d base exp m) s) (Wrote s · [(d, 1)])

/-- R230, R232: for every sign and size of base, exponent and non-zero modulus: MODPOW writes the answer of the loop started at
answer 1, or fails as the loop does (first clause); the loop goes on from one pass as R230 writes it, with the first product that
overflows ending it (second clause: these two fix the result or the error for every operand); a non-zero exponent gives a result
below the modulus in magnitude when no product can overflow (third clause). -/
def Obligations.ModpowStaysBelowTheModulus : Prop :=
  (∀ (d base exp m : Reg) (s : State), (Instr.modpow d base exp m).wf = true → magOf s m ≠ 0 →
    (∀ p, powLoop (valOf s m) (magOf s exp) ⟨1, valOf s base, magOf s exp⟩ = .ok p →
      Answers (exec (.modpow d base exp m) s) (Wrote s · [(d, p.answer)])) ∧
    (∀ e, powLoop (valOf s m) (magOf s exp) ⟨1, valOf s base, magOf s exp⟩ = .error e →
      Answers (exec (.modpow d base exp m) s) (Failed e s))) ∧
  (∀ (m answer base : Int) (e : Nat), m ≠ 0 →
    powLoop m e ⟨answer, base, e⟩ =
      if e = 0 then .ok ⟨answer, base, 0⟩
      else if e % 2 = 1 ∧ Config.maxMag ≤ (answer * base).natAbs then .error .capacityExceeded
      else if Config.maxMag ≤ (base * base).natAbs then .error .capacityExceeded
      else powLoop m (e / 2) ⟨if e % 2 = 1 then reduced (answer * base) m else answer, reduced (base * base) m, e / 2⟩) ∧
  (∀ (d base exp m : Reg) (s : State), (Instr.modpow d base exp m).wf = true → magOf s exp ≠ 0 → magOf s m ≠ 0 →
    magOf s base * magOf s base < Config.maxMag → magOf s m * magOf s m ≤ Config.maxMag →
    ∃ v : Int, v.natAbs < magOf s m ∧ Answers (exec (.modpow d base exp m) s) (Wrote s · [(d, v)]))

/-! ### Errors -/

/-- R241 with R152, R153, R170, R172, R191 to R193, R230: a result of magnitude `MAXMAG` or more is an error, never wrapped; so is
MODPOW's first squaring, which every non-zero exponent performs, also when it is the last and unused one. -/
def Obligations.OverflowRaisesCapacityExceeded : Prop :=
  ∀ (d a b : Reg) (s : State), 2 ≤ d.val →
    (0 ≤ s.arg0.toInt → s.arg0.toInt < Config.cap → Config.maxMag ≤ magOf s a * 2 ^ (32 * s.arg0.toInt.toNat) →
      Answers (exec (.shw d a) s) (Failed .capacityExceeded s)) ∧
    (0 ≤ s.arg0.toInt → s.arg0.toInt < (32 * Config.cap : Nat) → Config.maxMag ≤ magOf s a * 2 ^ s.arg0.toInt.toNat →
      Answers (exec (.shb d a) s) (Failed .capacityExceeded s)) ∧
    (Config.maxMag ≤ magOf s a + magOf s b → Answers (exec (.addm d a b) s) (Failed .capacityExceeded s)) ∧
    (Config.maxMag ≤ magOf s a * magOf s b → Answers (exec (.mulm d a b) s) (Failed .capacityExceeded s)) ∧
    (Config.maxMag ≤ (valOf s a + valOf s b).natAbs → Answers (exec (.add d a b) s) (Failed .capacityExceeded s)) ∧
    (Config.maxMag ≤ (valOf s a - valOf s b).natAbs → Answers (exec (.sub d a b) s) (Failed .capacityExceeded s)) ∧
    (Config.maxMag ≤ (valOf s a * valOf s b).natAbs → Answers (exec (.mul d a b) s) (Failed .capacityExceeded s)) ∧
    (∀ m : Reg, magOf s b ≠ 0 → magOf s m ≠ 0 → Config.maxMag ≤ magOf s a * magOf s a →
      Answers (exec (.modpow d a b m) s) (Failed .capacityExceeded s))

/-- R241: the commands that never raise `CapacityExceeded`, whatever their operands. -/
def Obligations.CommandsThatNeverOverflow : Prop :=
  ∀ (d e a b : Reg) (neg : Bool) (s : State),
    ∀ i ∈ [Instr.cmpm a b, .eqmu a b, .flipb d a, .bor d a b, .band d a b, .bxor d a b, .subm d a b, .divm d e a b, .div d e a b,
      .mod d a b, .mov d a, .ldu64 d neg],
    Answers (exec i s) fun t => t.err ≠ some .capacityExceeded

/-- R242: a legal command raises `DivideByZero` exactly when it divides (DIVM, DIV, MOD, MODPOW) and its divisor has zero
magnitude, a zero dividend or a zero exponent not preventing it; GCD never does. -/
def Obligations.DivideByZeroExactly : Prop :=
  ∀ (i : Instr) (s : State), i.wf = true →
    Answers (exec i s) fun t =>
      (t.err = some .divideByZero ↔ ∃ b, divisorOf i = some b ∧ magOf s b = 0)
        ∧ (t.err = some .divideByZero → Failed .divideByZero s t)

/-- R244: a legal command raises `BitIndexOutOfRange` exactly when it is FLIPB with zext(`ARG0`) ≥ 32·`CAP`, SHB with
sext(`ARG0`) ≥ 32·`CAP`, or SHW with sext(`ARG0`) ≥ `CAP`, whatever the operand. -/
def Obligations.BitIndexOutOfRangeExactly : Prop :=
  ∀ (i : Instr) (s : State), i.wf = true →
    Answers (exec i s) fun t =>
      (t.err = some .bitIndexOutOfRange ↔ amountOutOfRange s i)
        ∧ (t.err = some .bitIndexOutOfRange → Failed .bitIndexOutOfRange s t)

/-- R247: a command that completes with an error, also one whose word does not decode, changes the four status items and nothing
else, no destination even partly. -/
def Obligations.ErrorsChangeOnlyStatus : Prop :=
  (∀ (i : Instr) (s t : State) (e : CmdError), exec i s = .next t → t.err = some e → Failed e s t) ∧
  (∀ (s t : State) (e : CmdError), complete s = .next t → t.err = some e → Failed e s t)

/-! ### The whole machine -/

/-- R98: every command, on every state, completes: not busy, done, everything R247 lists as kept kept. -/
def Obligations.EveryCommandCompletes : Prop :=
  ∀ (i : Instr) (s : State), Answers (exec i s) fun t => t.busy = false ∧ t.done = true ∧ Untouched s t

/-- R98, R249: no step of the machine, from any state, stops with a fault or a refusal. -/
def Obligations.NoStepStops : Prop := ∀ s : State, ∃ t, step s = .next t

/-- R30, R74: a command writes no register but its destinations. -/
def Obligations.OnlyDestinationsAreWritten : Prop :=
  ∀ (i : Instr) (s t : State) (k : Reg), exec i s = .next t → k ∉ i.dests → t.reg k = s.reg k

/-- R25, R30: every value a command writes is canonical: normalised, zero above `top`, zero with sign +1. -/
def Obligations.CommandsWriteCanonicalValues : Prop :=
  ∀ (i : Instr) (s t : State) (k : Reg), exec i s = .next t → t.err = none → k ∈ i.dests → (t.reg k).Canonical

/-- R24, R31: a command reads its sources only through sign and magnitude: two states alike in these give the same outcome, the
same results in every destination and the same flags, whatever their words above `top` and their zero words hold. -/
def Obligations.CommandsReadSignAndMagnitudeOnly : Prop :=
  ∀ (i : Instr) (s s' : State), Alike s s' →
    ∃ t t' : State, exec i s = .next t ∧ exec i s' = .next t' ∧ t.err = t'.err ∧
      (t.err = none → (∀ d ∈ i.dests, t.reg d = t'.reg d) ∧ (i.dests = [] → t.flags = t'.flags))

/-- R34: a step that changes `FLAGS` completes CMPM or EQMU, or is a reset. -/
def Obligations.FlagsChangeOnlyByComparison : Prop :=
  ∀ s t : State, step s = .next t → t.flags ≠ s.flags →
    (s.rst = true ∨ s.turns.head? = some (.host (.setRst true))) ∨
    (BlockCompletesNext s ∧ ∃ a b, decode s.cmd = .ok (.cmpm a b) ∨ decode s.cmd = .ok (.eqmu a b))

/-- R37, R98, R280: `BUSY` and `DONE` never both 1, no error code while busy, and the block at its reset values while `rst` is
high: every step keeps this, from every state in which it holds. -/
def Obligations.EveryStepKeepsTheStatusInvariant : Prop :=
  ∀ s t : State, StatusInv s → step s = .next t → StatusInv t

/-- R37, R47: the state after reset meets the status invariant. -/
def Obligations.ResetMeetsTheStatusInvariant : Prop := StatusInv State.reset

/-! ### Reset and the host's window -/

/-- R47: the state after reset. -/
def Obligations.ResetValues : Prop :=
  State.reset.cmd = 0 ∧ State.reset.busy = false ∧ State.reset.done = false ∧ State.reset.err = none ∧ State.reset.ie = false
    ∧ State.reset.flags = ⟨false, false, false⟩ ∧ State.reset.arg0 = 0 ∧ State.reset.arg1 = 0
    ∧ State.reset.sticky = ⟨false, false, false, false, false⟩ ∧ irq State.reset = false
    ∧ readLocation State.reset .capacity = some 512
    ∧ (∀ k : Reg, (State.reset.reg k).top = 0 ∧ (State.reset.reg k).sg = false
        ∧ ∀ i < Config.cap, (State.reset.reg k).word i = if k = 1 ∧ i = 0 then 1 else 0)

/-- R281 with R280: from the edge that raises `rst` until the turn that lowers it, whatever the turn, every field of the block
holds its reset value: a command in flight writes nothing. -/
def Obligations.ResetPinAbandonsTheCommand : Prop :=
  ∀ s : State, (s.rst = true ∨ s.turns.head? = some (.host (.setRst true))) →
    Answers (step s) fun t =>
      t.regs = State.reset.regs ∧ t.cmd = 0 ∧ t.busy = false ∧ t.done = false ∧ t.err = none ∧ t.ie = false
        ∧ t.flags = State.reset.flags ∧ t.arg0 = 0 ∧ t.arg1 = 0 ∧ t.sticky = State.reset.sticky
        ∧ (t.rst = false ↔ s.turns.head? = some (.host (.setRst false)))

/-- R36: a `CMD` write starts a command when idle and is dropped and flagged while busy; a read gives the last word accepted,
which no access and no other command changes. -/
def Obligations.CmdWriteStartsACommand : Prop :=
  (∀ (s : State) (c : Word),
    (s.busy = false → hostWrite 0 c s = { s with cmd := c, busy := true, done := false, err := none }) ∧
    (s.busy = true → hostWrite 0 c s = { s with sticky := { s.sticky with busyViolation := true } })) ∧
  (∀ s : State, hostRead 0 s = { s with readData := s.cmd }) ∧
  (∀ (s : State) (a : Addr) (v : Word), a ≠ 0 → (hostWrite a v s).cmd = s.cmd) ∧
  (∀ (i : Instr) (s t : State), exec i s = .next t → t.cmd = s.cmd) ∧
  State.reset.cmd = 0

/-- R62 with R34 to R42, R61: a read changes no state of the block, and the word read is, by address: `CMD`, `STATUS`, `CTRL`,
`FLAGS`, `ARG0`, `ARG1`, `ERRSTICKY`, `CAPACITY`, 0 for a reserved address, and while idle a `META` or a BigNum word. -/
def Obligations.WindowReadValues : Prop :=
  ∀ (s : State) (a : Addr), NextTurnIs s (.host (.memRead a)) →
    ∃ (v : Word) (n : Nat), step s = .next { afterTurn s with readData := v, freeCount := n } ∧
      (a.toNat = 0 → v = s.cmd) ∧
      (a.toNat = 1 → v.toNat = s.busy.toNat + 2 * s.done.toNat + 16 * errCode s.err) ∧
      (a.toNat = 2 → v.toNat = s.ie.toNat) ∧
      (a.toNat = 3 → v.toNat = s.flags.lt.toNat + 2 * s.flags.eq.toNat + 4 * s.flags.gt.toNat) ∧
      (a.toNat = 4 → v = s.arg0) ∧
      (a.toNat = 5 → v = s.arg1) ∧
      (a.toNat = 6 → v.toNat = 2 * s.sticky.capacityExceeded.toNat + 4 * s.sticky.divideByZero.toNat
        + 16 * s.sticky.bitIndexOutOfRange.toNat + 32 * s.sticky.illegalCommand.toNat + 64 * s.sticky.busyViolation.toNat) ∧
      (a.toNat = 7 → v.toNat = Config.cap) ∧
      (0x10 ≤ a.toNat → a.toNat < 0x1000 → v = 0) ∧
      (s.busy = false → ∀ k : Reg, a.toNat = 0x8 + k.val →
        v.toNat = 2 ^ 31 * (s.reg k).sg.toNat + (s.reg k).top.toNat) ∧
      (s.busy = false → ∀ (k : Reg) (i : Nat), i < Config.cap → a.toNat = 0x1000 + k.val * 0x200 + i → v = (s.reg k).word i)

/-- R63, R61: an idle write to `B[k].w[i]`, k ≥ 2, sets that one word and changes nothing else, in particular not `top` or `sg`. -/
def Obligations.WordWriteSetsOneWord : Prop :=
  ∀ (s : State) (a : Addr) (v : Word) (k : Reg) (i : Nat), NextTurnIs s (.host (.memWrite a v)) → s.busy = false →
    2 ≤ k.val → i < Config.cap → a.toNat = 0x1000 + k.val * 0x200 + i →
    Answers (step s) fun t =>
      (t.reg k).word i = v ∧ (∀ j, j ≠ i → (t.reg k).word j = (s.reg k).word j) ∧ (t.reg k).top = (s.reg k).top
        ∧ (t.reg k).sg = (s.reg k).sg ∧ (∀ j, j ≠ k → t.reg j = s.reg j) ∧ ControlUnchanged s t ∧ t.turns = s.turns.tail

/-- R42: an idle write to `METAk`, k ≥ 2, sets `top` from bits 8:0 and `sg` from bit 31 and changes nothing else. -/
def Obligations.MetaWriteSetsTopAndSign : Prop :=
  ∀ (s : State) (a : Addr) (v : Word) (k : Reg), NextTurnIs s (.host (.memWrite a v)) → s.busy = false →
    2 ≤ k.val → a.toNat = 0x8 + k.val →
    Answers (step s) fun t =>
      (t.reg k).top.toNat = v.toNat % 2 ^ 9 ∧ (t.reg k).sg = v.getLsbD 31 ∧ (t.reg k).w = (s.reg k).w
        ∧ (∀ j, j ≠ k → t.reg j = s.reg j) ∧ ControlUnchanged s t ∧ t.turns = s.turns.tail

/-- R37, R38, R39, R41: writes to `STATUS`, `CTRL`, `ARG0`, `ARG1` and `ERRSTICKY`, and what each leaves. -/
def Obligations.ControlRegisterWrites : Prop :=
  ∀ (s : State) (v : Word),
    (NextTurnIs s (.host (.memWrite 1 v)) →
      step s = .next { afterTurn s with done := s.done && (s.busy || !v.getLsbD 1) }) ∧
    (NextTurnIs s (.host (.memWrite 2 v)) → step s = .next { afterTurn s with ie := v.getLsbD 0 }) ∧
    (NextTurnIs s (.host (.memWrite 4 v)) → s.busy = false → step s = .next { afterTurn s with arg0 := v }) ∧
    (NextTurnIs s (.host (.memWrite 5 v)) → s.busy = false → step s = .next { afterTurn s with arg1 := v }) ∧
    (NextTurnIs s (.host (.memWrite 6 v)) →
      step s = .next { afterTurn s with
        sticky := ⟨s.sticky.capacityExceeded && !v.getLsbD 1, s.sticky.divideByZero && !v.getLsbD 2,
          s.sticky.bitIndexOutOfRange && !v.getLsbD 4, s.sticky.illegalCommand && !v.getLsbD 5,
          s.sticky.busyViolation && !v.getLsbD 6⟩ })

/-- R65: writes to `FLAGS`, `CAPACITY` and reserved addresses are ignored, and so are, while idle, writes to `META0`, `META1` and
the words of `B0` and `B1`, which read as the constants in every state (R29). While busy R65 and R67 differ on the latter:
BusyWritesAreDroppedAndFlagged says what they agree on (log entry 3). -/
def Obligations.ReadOnlyLocationsIgnoreWrites : Prop :=
  (∀ (s : State) (a : Addr) (v : Word), NextTurnIs s (.host (.memWrite a v)) →
    (a.toNat = 3 ∨ a.toNat = 7 ∨ (0x10 ≤ a.toNat ∧ a.toNat < 0x1000) ∨
      (s.busy = false ∧ (a.toNat = 8 ∨ a.toNat = 9 ∨ (0x1000 ≤ a.toNat ∧ a.toNat < 0x1400)))) →
    step s = .next (afterTurn s)) ∧
  (∀ s : State, (s.reg 0).top = 0 ∧ (s.reg 0).sg = false ∧ (s.reg 1).top = 0 ∧ (s.reg 1).sg = false
    ∧ ∀ i < Config.cap, (s.reg 0).word i = 0 ∧ (s.reg 1).word i = if i = 0 then 1 else 0)

/-- R67, R251: while busy, a write to `CMD`, `ARG0`, `ARG1`, a general register's `META` or one of its words is dropped: `ERRSTICKY`
bit 6 and nothing else. A write to `META0`, `META1` or a word of `B0` or `B1` is dropped too, on which R65 and R67 agree; whether it
sets bit 6 they do not, so the bit is left open but never cleared (log entry 3; `n` is the model's count of free values). -/
def Obligations.BusyWritesAreDroppedAndFlagged : Prop :=
  ∀ (s : State) (a : Addr) (v : Word), NextTurnIs s (.host (.memWrite a v)) → s.busy = true →
    ((a.toNat = 0 ∨ a.toNat = 4 ∨ a.toNat = 5 ∨ (0xA ≤ a.toNat ∧ a.toNat < 0x10) ∨ 0x1400 ≤ a.toNat) →
      step s = .next { afterTurn s with sticky := { s.sticky with busyViolation := true } }) ∧
    ((a.toNat = 8 ∨ a.toNat = 9 ∨ (0x1000 ≤ a.toNat ∧ a.toNat < 0x1400)) →
      ∃ (bit : Bool) (n : Nat), (s.sticky.busyViolation = true → bit = true) ∧
        step s = .next { afterTurn s with sticky := { s.sticky with busyViolation := bit }, freeCount := n })

/-- R41: a bit of `ERRSTICKY`, once set, stays set until the host writes 1 to it or reset. -/
def Obligations.StickyBitsStaySet : Prop :=
  ∀ (s t : State) (c : Nat), step s = .next t → (stickyWord s.sticky).getLsbD c = true → (stickyWord t.sticky).getLsbD c = false →
    s.rst = true ∨ s.turns.head? = some (.host (.setRst true)) ∨
      ∃ v : Word, s.turns.head? = some (.host (.memWrite 6 v)) ∧ v.getLsbD c = true

/-- R250: `irq` is `DONE` and `IE`: up after every completion when enabled, error or not; down after an accepted `CMD` write, a 1
written to `STATUS` bit 1, a cleared `IE`, and reset (the turns are those of log entry 1, the reset edge that of log entry 4). -/
def Obligations.InterruptMirrorsDone : Prop :=
  (∀ s : State, irq s = true ↔ s.done = true ∧ s.ie = true) ∧
  (∀ s : State, BlockCompletesNext s → Answers (step s) fun t => irq t = s.ie) ∧
  (∀ (s : State) (v : Word), s.busy = false → NextTurnIs s (.host (.memWrite 0 v)) → Answers (step s) fun t => irq t = false) ∧
  (∀ (s : State) (v : Word), s.busy = false → v.getLsbD 1 = true → NextTurnIs s (.host (.memWrite 1 v)) →
    Answers (step s) fun t => irq t = false) ∧
  (∀ (s : State) (v : Word), v.getLsbD 0 = false → NextTurnIs s (.host (.memWrite 2 v)) → Answers (step s) fun t => irq t = false) ∧
  (∀ s : State, s.turns.head? = some (.host (.setRst true)) → Answers (step s) fun t => irq t = false)

/-- R120, R103: the host's fromWords leaves a general register whose magnitude is the number the words write and whose sign bit is
the given one, whatever the register held before, and changes nothing else. -/
def Obligations.LoadedWordsAreTheMagnitude : Prop :=
  ∀ (s : State) (k : Reg) (neg : Bool) (ws : List Word), s.rst = false → s.busy = false → 2 ≤ k.val → ws ≠ [] →
    ws.length ≤ Config.cap →
    Answers (runTurns (loadW k neg ws) s) fun t =>
      (t.reg k).mag = wordsValue ws ∧ (t.reg k).sg = neg ∧ (∀ j, j ≠ k → t.reg j = s.reg j) ∧ ControlUnchanged s t
        ∧ t.turns = s.turns

/-! ### Laws, and the source's algorithms against the integer functions -/

/-- R153: a left shift that raises no error, shifted back by the same amount, gives the value shifted. -/
def Obligations.ShiftBackRestoresTheValue : Prop :=
  ∀ (r : BigNum) (n v : Int), 0 ≤ n → shiftBits r.sgn r.mag n = .ok v →
    shiftBits (pack v).sgn (pack v).mag (-n) = .ok r.val

/-- R151, R158: flipping one bit twice restores the magnitude, and the value too except for the value −2^i, whose first flip is
plus zero. (R158 states the law for every value; by R151 it fails there, see NOTES.md.) -/
def Obligations.FlipTwiceRestores : Prop :=
  ∀ (r : BigNum) (i : Nat) (v w : Int), flipBit r.sgn r.mag i = .ok v → flipBit (pack v).sgn (pack v).mag i = .ok w →
    w.natAbs = r.mag ∧ (r.val ≠ -(2 ^ i) → w = r.val)

/-- R140, R142: the source's comparison, trimmed tops first and then words from the top, is the order of the magnitudes. -/
def Obligations.WordComparisonIsMagnitudeOrder : Prop :=
  ∀ a b : BigNum, compareByWords a b = compare a.mag b.mag

/-- R170: ripple-carry addition up to the larger trimmed top, with its carry out as one more word, is the sum; the carry is 0 or 1. -/
def Obligations.RippleCarryAddsMagnitudes : Prop :=
  ∀ a b : BigNum,
    let T := max a.etop b.etop
    wordsValue (rippleAdd (wordPairs a b T) 0).1 + (rippleAdd (wordPairs a b T) 0).2 * 2 ^ (32 * (T + 1)) = a.mag + b.mag
      ∧ (rippleAdd (wordPairs a b T) 0).2 ≤ 1

/-- R171: the source's borrow subtraction, run on operands already in order, is the difference, and no borrow is left over. -/
def Obligations.BorrowSubtractionSubtractsMagnitudes : Prop :=
  ∀ a b : BigNum, b.mag ≤ a.mag →
    wordsValue (rippleSub (wordPairs a b a.etop) 0).1 = a.mag - b.mag ∧ (rippleSub (wordPairs a b a.etop) 0).2 = 0

/-- R172: the source's schoolbook multiplication computes the product of the magnitudes. -/
def Obligations.SchoolbookMultipliesMagnitudes : Prop := ∀ a b : BigNum, schoolbook a b = a.mag * b.mag

/-- R173, R174: the source's restoring shift-and-subtract loop computes the floor quotient and its remainder. -/
def Obligations.RestoringDivisionIsFloorDivision : Prop :=
  ∀ a d : Nat, d ≠ 0 → restoringDivide a d = (a / d, a % d)

/-- R190: every entry of the sign-dispatch table is the integer operation on the values; for DIV, the division of R194. -/
def Obligations.SignDispatchIsIntegerArithmetic : Prop :=
  ∀ a b : BigNum,
    dispatchAdd a.sg b.sg a.mag b.mag = a.val + b.val ∧ dispatchSub a.sg b.sg a.mag b.mag = a.val - b.val ∧
    dispatchMul a.sg b.sg a.mag b.mag = a.val * b.val ∧
    (b.mag ≠ 0 → divInt a.val b.val = .ok (dispatchDiv a.sg b.sg a.mag b.mag))

/-- R195: the division identity with MOD's result holds except for a negative dividend larger than the divisor with a non-zero
remainder. -/
def Obligations.DivisionIdentityWithMod : Prop :=
  ∀ x y m : Int, y ≠ 0 → modInt x y = .ok m →
    (x = x.tdiv y * y + m ↔ ¬ (x < 0 ∧ y.natAbs < x.natAbs ∧ x.natAbs % y.natAbs ≠ 0))
end

