-- ==== Sys2Proof/Laws/State.lean ====
section
/-! SUPPORT. One lemma per field of the state per named update, so that no proof unfolds a record update. -/

namespace Sys2Proof.Machine

@[simp] theorem regs_raise (e : CmdError) (s : State) : (raise e s).regs = s.regs := rfl
@[simp] theorem cmd_raise (e : CmdError) (s : State) : (raise e s).cmd = s.cmd := rfl
@[simp] theorem busy_raise (e : CmdError) (s : State) : (raise e s).busy = false := rfl
@[simp] theorem done_raise (e : CmdError) (s : State) : (raise e s).done = true := rfl
@[simp] theorem err_raise (e : CmdError) (s : State) : (raise e s).err = some e := rfl
@[simp] theorem ie_raise (e : CmdError) (s : State) : (raise e s).ie = s.ie := rfl
@[simp] theorem flags_raise (e : CmdError) (s : State) : (raise e s).flags = s.flags := rfl
@[simp] theorem arg0_raise (e : CmdError) (s : State) : (raise e s).arg0 = s.arg0 := rfl
@[simp] theorem arg1_raise (e : CmdError) (s : State) : (raise e s).arg1 = s.arg1 := rfl
@[simp] theorem sticky_raise (e : CmdError) (s : State) : (raise e s).sticky = s.sticky.record e := rfl
@[simp] theorem rst_raise (e : CmdError) (s : State) : (raise e s).rst = s.rst := rfl
@[simp] theorem readData_raise (e : CmdError) (s : State) : (raise e s).readData = s.readData := rfl
@[simp] theorem turns_raise (e : CmdError) (s : State) : (raise e s).turns = s.turns := rfl
@[simp] theorem freeCount_raise (e : CmdError) (s : State) : (raise e s).freeCount = s.freeCount := rfl

@[simp] theorem regs_finish (s : State) : (finish s).regs = s.regs := rfl
@[simp] theorem cmd_finish (s : State) : (finish s).cmd = s.cmd := rfl
@[simp] theorem busy_finish (s : State) : (finish s).busy = false := rfl
@[simp] theorem done_finish (s : State) : (finish s).done = true := rfl
@[simp] theorem err_finish (s : State) : (finish s).err = none := rfl
@[simp] theorem ie_finish (s : State) : (finish s).ie = s.ie := rfl
@[simp] theorem flags_finish (s : State) : (finish s).flags = s.flags := rfl
@[simp] theorem arg0_finish (s : State) : (finish s).arg0 = s.arg0 := rfl
@[simp] theorem arg1_finish (s : State) : (finish s).arg1 = s.arg1 := rfl
@[simp] theorem sticky_finish (s : State) : (finish s).sticky = s.sticky := rfl
@[simp] theorem rst_finish (s : State) : (finish s).rst = s.rst := rfl
@[simp] theorem readData_finish (s : State) : (finish s).readData = s.readData := rfl
@[simp] theorem turns_finish (s : State) : (finish s).turns = s.turns := rfl
@[simp] theorem freeCount_finish (s : State) : (finish s).freeCount = s.freeCount := rfl

@[simp] theorem regs_accept (c : Word) (s : State) : (accept c s).regs = s.regs := rfl
@[simp] theorem cmd_accept (c : Word) (s : State) : (accept c s).cmd = c := rfl
@[simp] theorem busy_accept (c : Word) (s : State) : (accept c s).busy = true := rfl
@[simp] theorem done_accept (c : Word) (s : State) : (accept c s).done = false := rfl
@[simp] theorem err_accept (c : Word) (s : State) : (accept c s).err = none := rfl
@[simp] theorem ie_accept (c : Word) (s : State) : (accept c s).ie = s.ie := rfl
@[simp] theorem flags_accept (c : Word) (s : State) : (accept c s).flags = s.flags := rfl
@[simp] theorem arg0_accept (c : Word) (s : State) : (accept c s).arg0 = s.arg0 := rfl
@[simp] theorem arg1_accept (c : Word) (s : State) : (accept c s).arg1 = s.arg1 := rfl
@[simp] theorem sticky_accept (c : Word) (s : State) : (accept c s).sticky = s.sticky := rfl
@[simp] theorem rst_accept (c : Word) (s : State) : (accept c s).rst = s.rst := rfl
@[simp] theorem readData_accept (c : Word) (s : State) : (accept c s).readData = s.readData := rfl
@[simp] theorem turns_accept (c : Word) (s : State) : (accept c s).turns = s.turns := rfl
@[simp] theorem freeCount_accept (c : Word) (s : State) : (accept c s).freeCount = s.freeCount := rfl

@[simp] theorem regs_readAny (s : State) : (readAny s).regs = s.regs := rfl
@[simp] theorem cmd_readAny (s : State) : (readAny s).cmd = s.cmd := rfl
@[simp] theorem busy_readAny (s : State) : (readAny s).busy = s.busy := rfl
@[simp] theorem done_readAny (s : State) : (readAny s).done = s.done := rfl
@[simp] theorem err_readAny (s : State) : (readAny s).err = s.err := rfl
@[simp] theorem ie_readAny (s : State) : (readAny s).ie = s.ie := rfl
@[simp] theorem flags_readAny (s : State) : (readAny s).flags = s.flags := rfl
@[simp] theorem arg0_readAny (s : State) : (readAny s).arg0 = s.arg0 := rfl
@[simp] theorem arg1_readAny (s : State) : (readAny s).arg1 = s.arg1 := rfl
@[simp] theorem sticky_readAny (s : State) : (readAny s).sticky = s.sticky := rfl
@[simp] theorem rst_readAny (s : State) : (readAny s).rst = s.rst := rfl
@[simp] theorem readData_readAny (s : State) : (readAny s).readData = Config.freeWord s.freeCount := rfl
@[simp] theorem turns_readAny (s : State) : (readAny s).turns = s.turns := rfl
@[simp] theorem freeCount_readAny (s : State) : (readAny s).freeCount = s.freeCount + 1 := rfl

@[simp] theorem regs_dropBusy (s : State) : (dropBusy s).regs = s.regs := rfl
@[simp] theorem cmd_dropBusy (s : State) : (dropBusy s).cmd = s.cmd := rfl
@[simp] theorem busy_dropBusy (s : State) : (dropBusy s).busy = s.busy := rfl
@[simp] theorem done_dropBusy (s : State) : (dropBusy s).done = s.done := rfl
@[simp] theorem err_dropBusy (s : State) : (dropBusy s).err = s.err := rfl
@[simp] theorem ie_dropBusy (s : State) : (dropBusy s).ie = s.ie := rfl
@[simp] theorem flags_dropBusy (s : State) : (dropBusy s).flags = s.flags := rfl
@[simp] theorem arg0_dropBusy (s : State) : (dropBusy s).arg0 = s.arg0 := rfl
@[simp] theorem arg1_dropBusy (s : State) : (dropBusy s).arg1 = s.arg1 := rfl
@[simp] theorem sticky_dropBusy (s : State) : (dropBusy s).sticky = { s.sticky with busyViolation := true } := rfl
@[simp] theorem rst_dropBusy (s : State) : (dropBusy s).rst = s.rst := rfl
@[simp] theorem readData_dropBusy (s : State) : (dropBusy s).readData = s.readData := rfl
@[simp] theorem turns_dropBusy (s : State) : (dropBusy s).turns = s.turns := rfl
@[simp] theorem freeCount_dropBusy (s : State) : (dropBusy s).freeCount = s.freeCount := rfl

@[simp] theorem regs_dropReadOnlyBusy (s : State) : (dropReadOnlyBusy s).regs = s.regs := rfl
@[simp] theorem cmd_dropReadOnlyBusy (s : State) : (dropReadOnlyBusy s).cmd = s.cmd := rfl
@[simp] theorem busy_dropReadOnlyBusy (s : State) : (dropReadOnlyBusy s).busy = s.busy := rfl
@[simp] theorem done_dropReadOnlyBusy (s : State) : (dropReadOnlyBusy s).done = s.done := rfl
@[simp] theorem err_dropReadOnlyBusy (s : State) : (dropReadOnlyBusy s).err = s.err := rfl
@[simp] theorem ie_dropReadOnlyBusy (s : State) : (dropReadOnlyBusy s).ie = s.ie := rfl
@[simp] theorem flags_dropReadOnlyBusy (s : State) : (dropReadOnlyBusy s).flags = s.flags := rfl
@[simp] theorem arg0_dropReadOnlyBusy (s : State) : (dropReadOnlyBusy s).arg0 = s.arg0 := rfl
@[simp] theorem arg1_dropReadOnlyBusy (s : State) : (dropReadOnlyBusy s).arg1 = s.arg1 := rfl
@[simp] theorem sticky_dropReadOnlyBusy (s : State) : (dropReadOnlyBusy s).sticky = { s.sticky with busyViolation := s.sticky.busyViolation || Config.freeBit s.freeCount } := rfl
@[simp] theorem rst_dropReadOnlyBusy (s : State) : (dropReadOnlyBusy s).rst = s.rst := rfl
@[simp] theorem readData_dropReadOnlyBusy (s : State) : (dropReadOnlyBusy s).readData = s.readData := rfl
@[simp] theorem turns_dropReadOnlyBusy (s : State) : (dropReadOnlyBusy s).turns = s.turns := rfl
@[simp] theorem freeCount_dropReadOnlyBusy (s : State) : (dropReadOnlyBusy s).freeCount = s.freeCount + 1 := rfl

@[simp] theorem regs_clockReset (s : State) : (clockReset s).regs = State.reset.regs := rfl
@[simp] theorem cmd_clockReset (s : State) : (clockReset s).cmd = State.reset.cmd := rfl
@[simp] theorem busy_clockReset (s : State) : (clockReset s).busy = State.reset.busy := rfl
@[simp] theorem done_clockReset (s : State) : (clockReset s).done = State.reset.done := rfl
@[simp] theorem err_clockReset (s : State) : (clockReset s).err = State.reset.err := rfl
@[simp] theorem ie_clockReset (s : State) : (clockReset s).ie = State.reset.ie := rfl
@[simp] theorem flags_clockReset (s : State) : (clockReset s).flags = State.reset.flags := rfl
@[simp] theorem arg0_clockReset (s : State) : (clockReset s).arg0 = State.reset.arg0 := rfl
@[simp] theorem arg1_clockReset (s : State) : (clockReset s).arg1 = State.reset.arg1 := rfl
@[simp] theorem sticky_clockReset (s : State) : (clockReset s).sticky = State.reset.sticky := rfl
@[simp] theorem rst_clockReset (s : State) : (clockReset s).rst = s.rst := rfl
@[simp] theorem readData_clockReset (s : State) : (clockReset s).readData = s.readData := rfl
@[simp] theorem turns_clockReset (s : State) : (clockReset s).turns = s.turns := rfl
@[simp] theorem freeCount_clockReset (s : State) : (clockReset s).freeCount = s.freeCount := rfl

@[simp] theorem cmd_setReg (s : State) (k : Reg) (r : BigNum) : (s.setReg k r).cmd = s.cmd := by unfold State.setReg; split <;> rfl
@[simp] theorem busy_setReg (s : State) (k : Reg) (r : BigNum) : (s.setReg k r).busy = s.busy := by unfold State.setReg; split <;> rfl
@[simp] theorem done_setReg (s : State) (k : Reg) (r : BigNum) : (s.setReg k r).done = s.done := by unfold State.setReg; split <;> rfl
@[simp] theorem err_setReg (s : State) (k : Reg) (r : BigNum) : (s.setReg k r).err = s.err := by unfold State.setReg; split <;> rfl
@[simp] theorem ie_setReg (s : State) (k : Reg) (r : BigNum) : (s.setReg k r).ie = s.ie := by unfold State.setReg; split <;> rfl
@[simp] theorem flags_setReg (s : State) (k : Reg) (r : BigNum) : (s.setReg k r).flags = s.flags := by unfold State.setReg; split <;> rfl
@[simp] theorem arg0_setReg (s : State) (k : Reg) (r : BigNum) : (s.setReg k r).arg0 = s.arg0 := by unfold State.setReg; split <;> rfl
@[simp] theorem arg1_setReg (s : State) (k : Reg) (r : BigNum) : (s.setReg k r).arg1 = s.arg1 := by unfold State.setReg; split <;> rfl
@[simp] theorem sticky_setReg (s : State) (k : Reg) (r : BigNum) : (s.setReg k r).sticky = s.sticky := by unfold State.setReg; split <;> rfl
@[simp] theorem rst_setReg (s : State) (k : Reg) (r : BigNum) : (s.setReg k r).rst = s.rst := by unfold State.setReg; split <;> rfl
@[simp] theorem readData_setReg (s : State) (k : Reg) (r : BigNum) : (s.setReg k r).readData = s.readData := by unfold State.setReg; split <;> rfl
@[simp] theorem turns_setReg (s : State) (k : Reg) (r : BigNum) : (s.setReg k r).turns = s.turns := by unfold State.setReg; split <;> rfl
@[simp] theorem freeCount_setReg (s : State) (k : Reg) (r : BigNum) : (s.setReg k r).freeCount = s.freeCount := by unfold State.setReg; split <;> rfl

@[simp] theorem cmd_writeReg (s : State) (k : Reg) (v : Int) : (writeReg s k v).cmd = s.cmd := cmd_setReg s k _
@[simp] theorem busy_writeReg (s : State) (k : Reg) (v : Int) : (writeReg s k v).busy = s.busy := busy_setReg s k _
@[simp] theorem done_writeReg (s : State) (k : Reg) (v : Int) : (writeReg s k v).done = s.done := done_setReg s k _
@[simp] theorem err_writeReg (s : State) (k : Reg) (v : Int) : (writeReg s k v).err = s.err := err_setReg s k _
@[simp] theorem ie_writeReg (s : State) (k : Reg) (v : Int) : (writeReg s k v).ie = s.ie := ie_setReg s k _
@[simp] theorem flags_writeReg (s : State) (k : Reg) (v : Int) : (writeReg s k v).flags = s.flags := flags_setReg s k _
@[simp] theorem arg0_writeReg (s : State) (k : Reg) (v : Int) : (writeReg s k v).arg0 = s.arg0 := arg0_setReg s k _
@[simp] theorem arg1_writeReg (s : State) (k : Reg) (v : Int) : (writeReg s k v).arg1 = s.arg1 := arg1_setReg s k _
@[simp] theorem sticky_writeReg (s : State) (k : Reg) (v : Int) : (writeReg s k v).sticky = s.sticky := sticky_setReg s k _
@[simp] theorem rst_writeReg (s : State) (k : Reg) (v : Int) : (writeReg s k v).rst = s.rst := rst_setReg s k _
@[simp] theorem readData_writeReg (s : State) (k : Reg) (v : Int) : (writeReg s k v).readData = s.readData := readData_setReg s k _
@[simp] theorem turns_writeReg (s : State) (k : Reg) (v : Int) : (writeReg s k v).turns = s.turns := turns_setReg s k _
@[simp] theorem freeCount_writeReg (s : State) (k : Reg) (v : Int) : (writeReg s k v).freeCount = s.freeCount := freeCount_setReg s k _

@[simp] theorem cmd_writeRegs (s : State) (l : List (Reg × Int)) : (writeRegs s l).cmd = s.cmd := by
  induction l generalizing s with
  | nil => rfl
  | cons p rest ih => exact (ih _).trans (cmd_writeReg _ _ _)
@[simp] theorem busy_writeRegs (s : State) (l : List (Reg × Int)) : (writeRegs s l).busy = s.busy := by
  induction l generalizing s with
  | nil => rfl
  | cons p rest ih => exact (ih _).trans (busy_writeReg _ _ _)
@[simp] theorem done_writeRegs (s : State) (l : List (Reg × Int)) : (writeRegs s l).done = s.done := by
  induction l generalizing s with
  | nil => rfl
  | cons p rest ih => exact (ih _).trans (done_writeReg _ _ _)
@[simp] theorem err_writeRegs (s : State) (l : List (Reg × Int)) : (writeRegs s l).err = s.err := by
  induction l generalizing s with
  | nil => rfl
  | cons p rest ih => exact (ih _).trans (err_writeReg _ _ _)
@[simp] theorem ie_writeRegs (s : State) (l : List (Reg × Int)) : (writeRegs s l).ie = s.ie := by
  induction l generalizing s with
  | nil => rfl
  | cons p rest ih => exact (ih _).trans (ie_writeReg _ _ _)
@[simp] theorem flags_writeRegs (s : State) (l : List (Reg × Int)) : (writeRegs s l).flags = s.flags := by
  induction l generalizing s with
  | nil => rfl
  | cons p rest ih => exact (ih _).trans (flags_writeReg _ _ _)
@[simp] theorem arg0_writeRegs (s : State) (l : List (Reg × Int)) : (writeRegs s l).arg0 = s.arg0 := by
  induction l generalizing s with
  | nil => rfl
  | cons p rest ih => exact (ih _).trans (arg0_writeReg _ _ _)
@[simp] theorem arg1_writeRegs (s : State) (l : List (Reg × Int)) : (writeRegs s l).arg1 = s.arg1 := by
  induction l generalizing s with
  | nil => rfl
  | cons p rest ih => exact (ih _).trans (arg1_writeReg _ _ _)
@[simp] theorem sticky_writeRegs (s : State) (l : List (Reg × Int)) : (writeRegs s l).sticky = s.sticky := by
  induction l generalizing s with
  | nil => rfl
  | cons p rest ih => exact (ih _).trans (sticky_writeReg _ _ _)
@[simp] theorem rst_writeRegs (s : State) (l : List (Reg × Int)) : (writeRegs s l).rst = s.rst := by
  induction l generalizing s with
  | nil => rfl
  | cons p rest ih => exact (ih _).trans (rst_writeReg _ _ _)
@[simp] theorem readData_writeRegs (s : State) (l : List (Reg × Int)) : (writeRegs s l).readData = s.readData := by
  induction l generalizing s with
  | nil => rfl
  | cons p rest ih => exact (ih _).trans (readData_writeReg _ _ _)
@[simp] theorem turns_writeRegs (s : State) (l : List (Reg × Int)) : (writeRegs s l).turns = s.turns := by
  induction l generalizing s with
  | nil => rfl
  | cons p rest ih => exact (ih _).trans (turns_writeReg _ _ _)
@[simp] theorem freeCount_writeRegs (s : State) (l : List (Reg × Int)) : (writeRegs s l).freeCount = s.freeCount := by
  induction l generalizing s with
  | nil => rfl
  | cons p rest ih => exact (ih _).trans (freeCount_writeReg _ _ _)

end Sys2Proof.Machine
end

