-- ==== Sys2Proof/Laws/Value.lean ====
section
/-! SUPPORT. Laws of words, magnitudes and the canonical image (R9, R10): the words of `pack`, its value, its form, and one-word writes. -/

namespace Sys2Proof.Machine

@[simp] theorem wordsValue_nil : wordsValue [] = 0 := rfl

@[simp] theorem wordsValue_cons (x : Word) (xs : List Word) : wordsValue (x :: xs) = x.toNat + 2 ^ 32 * wordsValue xs := rfl

theorem wordsValue_lt (l : List Word) : wordsValue l < 2 ^ (32 * l.length) := by
  induction l with
  | nil => simp
  | cons x xs ih =>
    have hx := x.isLt
    have : 2 ^ (32 * (xs.length + 1)) = 2 ^ 32 * 2 ^ (32 * xs.length) := by rw [← Nat.pow_add]; congr 1; omega
    simp only [wordsValue_cons, List.length_cons, this]
    omega

theorem length_take_words (r : BigNum) : (r.w.take (r.top.toNat + 1)).length = r.top.toNat + 1 := by
  have := r.top.isLt
  simp only [List.length_take, r.len, Config.cap, Config.idxW] at *
  omega

theorem mag_lt_top (r : BigNum) : r.mag < 2 ^ (32 * (r.top.toNat + 1)) := by
  have := wordsValue_lt (r.w.take (r.top.toNat + 1))
  rwa [length_take_words] at this

/-- Every magnitude a register holds is below `MAXMAG` (R5). -/
theorem mag_lt_maxMag (r : BigNum) : r.mag < Config.maxMag := by
  refine lt_of_lt_of_le (mag_lt_top r) ?_
  have := r.top.isLt
  exact Nat.pow_le_pow_right (by decide) (by simp only [Config.cap, Config.idxW] at *; omega)

@[simp] theorem sgn_natAbs (r : BigNum) : r.sgn.natAbs = 1 := by unfold BigNum.sgn; split <;> rfl

@[simp] theorem val_natAbs (r : BigNum) : r.val.natAbs = r.mag := by simp [BigNum.val, Int.natAbs_mul]

theorem val_natAbs_lt (r : BigNum) : r.val.natAbs < Config.maxMag := by rw [val_natAbs]; exact mag_lt_maxMag r

theorem natAbs_sgn_mul (r : BigNum) (m : Nat) : (r.sgn * (m : Int)).natAbs = m := by simp [Int.natAbs_mul]

theorem shiftRight_mod_split (m k n : Nat) :
    (m >>> (32 * k)) % 2 ^ 32 + 2 ^ 32 * ((m >>> (32 * (k + 1))) % 2 ^ (32 * n)) = (m >>> (32 * k)) % 2 ^ (32 * (n + 1)) := by
  have h1 : m >>> (32 * (k + 1)) = (m >>> (32 * k)) / 2 ^ 32 := by
    rw [show 32 * (k + 1) = 32 * k + 32 by omega, Nat.shiftRight_add, Nat.shiftRight_eq_div_pow _ 32]
  have h2 : 2 ^ (32 * (n + 1)) = 2 ^ 32 * 2 ^ (32 * n) := by rw [← Nat.pow_add]; congr 1; omega
  rw [h1, h2, Nat.mod_mul]

/-- The first n words of R10's image of m write m modulo 2^(32·n). -/
theorem wordsValue_take_wordsOf (m n : Nat) (hn : n ≤ Config.cap) : wordsValue ((wordsOf m).take n) = m % 2 ^ (32 * n) := by
  have key : ∀ n k, wordsValue ((List.range' k n).map fun i => BitVec.ofNat 32 (m >>> (32 * i))) = (m >>> (32 * k)) % 2 ^ (32 * n) := by
    intro n
    induction n with
    | zero => intro k; simp [Nat.mod_one]
    | succ n ih =>
      intro k
      rw [List.range'_succ, List.map_cons, wordsValue_cons, ih, BitVec.toNat_ofNat, shiftRight_mod_split]
  have := key n 0
  rw [wordsOf, ← List.map_take, List.take_range, Nat.min_eq_left hn, List.range_eq_range', this]
  simp

@[simp] theorem w_pack (v : Int) : (pack v).w = wordsOf v.natAbs := by rw [pack]
@[simp] theorem top_pack (v : Int) : (pack v).top = topOf v.natAbs := by rw [pack]
@[simp] theorem sg_pack (v : Int) : (pack v).sg = decide (v < 0) := by rw [pack]

theorem word_pack (v : Int) (i : Nat) (hi : i < Config.cap) : (pack v).word i = BitVec.ofNat 32 (v.natAbs >>> (32 * i)) := by
  simp [BigNum.word, pack, wordsOf, hi]

theorem log2_div_lt_cap {m : Nat} (hm : m ≠ 0) (h : m < Config.maxMag) : m.log2 / 32 < Config.cap := by
  have : m.log2 < 32 * Config.cap := (Nat.log2_lt hm).2 h
  omega

theorem topOf_toNat {m : Nat} (h : m < Config.maxMag) : (topOf m).toNat = m.log2 / 32 := by
  unfold topOf
  split
  · next h0 => simp [h0]
  · next h0 =>
    have := log2_div_lt_cap h0 h
    rw [BitVec.toNat_ofNat, Nat.mod_eq_of_lt]
    simpa [Config.cap, Config.idxW] using this

theorem lt_two_pow_top (m : Nat) : m < 2 ^ (32 * (m.log2 / 32 + 1)) := by
  refine lt_of_lt_of_le (Nat.lt_log2_self (n := m)) (Nat.pow_le_pow_right (by decide) ?_)
  omega

/-- The canonical image has the magnitude it was made from (R9, R10). -/
theorem mag_pack {v : Int} (h : v.natAbs < Config.maxMag) : (pack v).mag = v.natAbs := by
  have ht : (pack v).top.toNat = v.natAbs.log2 / 32 := topOf_toNat h
  have hc : v.natAbs.log2 / 32 + 1 ≤ Config.cap := by
    by_cases h0 : v.natAbs = 0
    · simp [h0, Config.cap]
    · exact log2_div_lt_cap h0 h
  unfold BigNum.mag
  rw [ht, w_pack]
  have hlt := lt_two_pow_top v.natAbs
  have hval := wordsValue_take_wordsOf v.natAbs (v.natAbs.log2 / 32 + 1) hc
  rwa [Nat.mod_eq_of_lt hlt] at hval

/-- Reading back a canonical image gives the integer (R8, R10). -/
theorem val_pack {v : Int} (h : v.natAbs < Config.maxMag) : (pack v).val = v := by
  rw [BigNum.val, mag_pack h, BigNum.sgn, sg_pack]
  by_cases hv : v < 0
  · simp only [hv, decide_true, if_true]; omega
  · simp only [hv, decide_false, Bool.false_eq_true, if_false]; omega

/-- The image is canonical (R10, R12, R25). -/
theorem canonical_pack {v : Int} (h : v.natAbs < Config.maxMag) : (pack v).Canonical := by
  have ht : (pack v).top.toNat = v.natAbs.log2 / 32 := topOf_toNat h
  constructor
  · by_cases h0 : v.natAbs = 0
    · right
      have hv : v = 0 := Int.natAbs_eq_zero.1 h0
      subst hv
      refine ⟨rfl, ?_, rfl⟩
      rw [word_pack _ _ (by simp [Config.cap])]
      rfl
    · left
      rw [ht, word_pack _ _ (log2_div_lt_cap h0 h)]
      intro hz
      have hz' := congrArg BitVec.toNat hz
      have hlt := lt_two_pow_top v.natAbs
      have hle := Nat.log2_self_le h0
      have hpow : 2 ^ (32 * (v.natAbs.log2 / 32)) ≤ v.natAbs :=
        le_trans (Nat.pow_le_pow_right (by decide) (by omega)) hle
      have hsplit : 2 ^ (32 * (v.natAbs.log2 / 32 + 1)) = 2 ^ (32 * (v.natAbs.log2 / 32)) * 2 ^ 32 := by
        rw [← Nat.pow_add]; congr 1
      rw [BitVec.toNat_ofNat, Nat.shiftRight_eq_div_pow,
        Nat.mod_eq_of_lt (Nat.div_lt_of_lt_mul (hsplit ▸ hlt))] at hz'
      have : 0 < v.natAbs / 2 ^ (32 * (v.natAbs.log2 / 32)) := Nat.div_pos hpow (by positivity)
      simp at hz'
      omega
  · intro i hi hlt
    rw [ht] at hlt
    rw [word_pack _ _ hi, Nat.shiftRight_eq_div_pow, Nat.div_eq_of_lt]
    · rfl
    · exact lt_of_lt_of_le (lt_two_pow_top _) (Nat.pow_le_pow_right (by decide) (by omega))

theorem holds_pack {v : Int} (h : v.natAbs < Config.maxMag) : (pack v).Holds v := ⟨canonical_pack h, val_pack h⟩

theorem word_setWord_self (r : BigNum) (i : Nat) (v : Word) (hi : i < Config.cap) : (r.setWord i v).word i = v := by
  simp [BigNum.word, BigNum.setWord, r.len, hi]

theorem word_setWord_ne (r : BigNum) (i j : Nat) (v : Word) (h : i ≠ j) : (r.setWord i v).word j = r.word j := by
  simp [BigNum.word, BigNum.setWord, List.getElem?_set_ne h]

@[simp] theorem top_setWord (r : BigNum) (i : Nat) (v : Word) : (r.setWord i v).top = r.top := rfl
@[simp] theorem sg_setWord (r : BigNum) (i : Nat) (v : Word) : (r.setWord i v).sg = r.sg := rfl

@[simp] theorem mag_zero : BigNum.zero.mag = 0 := by decide +kernel
@[simp] theorem mag_one : BigNum.one.mag = 1 := by decide +kernel

end Sys2Proof.Machine
end

