-- ==== Sys2Proof/Laws/Registers.lean ====
section
/-! SUPPORT. The register file: hardwired constants (R29), a read after a write, and what a completed or failed command leaves. -/

namespace Sys2Proof.Machine

@[simp] theorem reg_zero (s : State) : s.reg 0 = BigNum.zero := rfl
@[simp] theorem reg_one (s : State) : s.reg 1 = BigNum.one := rfl

/-- The registers depend on the stored file only. -/
theorem reg_congr {s t : State} (h : t.regs = s.regs) (k : Reg) : t.reg k = s.reg k := by
  unfold State.reg
  simp only [h]

@[simp] theorem reg_raise (e : CmdError) (s : State) (k : Reg) : (raise e s).reg k = s.reg k := rfl
@[simp] theorem reg_finish (s : State) (k : Reg) : (finish s).reg k = s.reg k := rfl
@[simp] theorem reg_accept (c : Word) (s : State) (k : Reg) : (accept c s).reg k = s.reg k := rfl
@[simp] theorem reg_dropBusy (s : State) (k : Reg) : (dropBusy s).reg k = s.reg k := rfl
@[simp] theorem reg_dropReadOnlyBusy (s : State) (k : Reg) : (dropReadOnlyBusy s).reg k = s.reg k := rfl
@[simp] theorem reg_readAny (s : State) (k : Reg) : (readAny s).reg k = s.reg k := rfl

/-- A general register reads what was written to it. -/
theorem reg_setReg_self (s : State) (k : Reg) (r : BigNum) (h : 2 ≤ k.val) : (s.setReg k r).reg k = r := by
  have h0 : ¬ k.val = 0 := by omega
  have h1 : ¬ k.val = 1 := by omega
  simp [State.setReg, State.reg, h, h0, h1]

/-- A write to one register leaves every other as it was. -/
theorem reg_setReg_ne (s : State) (k j : Reg) (r : BigNum) (h : j ≠ k) : (s.setReg k r).reg j = s.reg j := by
  have hv : j.val ≠ k.val := fun e => h (Fin.ext e)
  unfold State.setReg
  split
  · next hk =>
    unfold State.reg
    split
    · rfl
    · split
      · rfl
      · next h0 h1 =>
        have : ¬ k.val - 2 = j.val - 2 := by omega
        simp [this]
  · rfl

/-- A write to `B0` or `B1` changes nothing (R29, R65). -/
theorem setReg_const (s : State) (k : Reg) (r : BigNum) (h : k.val < 2) : s.setReg k r = s := by
  have : ¬ 2 ≤ k.val := by omega
  simp [State.setReg, this]

/-- `B[k] <- v` leaves `B[k]` holding v in canonical form (R8, R30). -/
theorem holds_writeReg (s : State) (k : Reg) {v : Int} (hk : 2 ≤ k.val) (hv : v.natAbs < Config.maxMag) :
    ((writeReg s k v).reg k).Holds v := by
  rw [writeReg, reg_setReg_self _ _ _ hk]
  exact holds_pack hv

theorem reg_writeReg_ne (s : State) (k j : Reg) (v : Int) (h : j ≠ k) : (writeReg s k v).reg j = s.reg j :=
  reg_setReg_ne s k j _ h

/-- Registers that are no destination keep their images. -/
theorem reg_writeRegs_notMem (s : State) (l : List (Reg × Int)) (j : Reg) (h : j ∉ l.map (·.1)) : (writeRegs s l).reg j = s.reg j := by
  induction l generalizing s with
  | nil => rfl
  | cons p rest ih =>
    simp only [List.map_cons, List.mem_cons, not_or] at h
    exact (ih (writeReg s p.1 p.2) h.2).trans (reg_writeReg_ne s p.1 j p.2 h.1)

/-- Pairwise different general destinations each hold their value. -/
theorem holds_writeRegs (s : State) (l : List (Reg × Int)) (hd : (l.map (·.1)).Nodup) (hk : ∀ p ∈ l, 2 ≤ p.1.val)
    (hv : ∀ p ∈ l, p.2.natAbs < Config.maxMag) : ∀ p ∈ l, ((writeRegs s l).reg p.1).Holds p.2 := by
  induction l generalizing s with
  | nil => intro p hp; cases hp
  | cons q rest ih =>
    simp only [List.map_cons, List.nodup_cons] at hd
    intro p hp
    rcases List.mem_cons.1 hp with rfl | hp
    · rw [writeRegs, reg_writeRegs_notMem _ _ _ hd.1]
      exact holds_writeReg s p.1 (hk p (by simp)) (hv p (by simp))
    · exact ih (writeReg s q.1 q.2) hd.2 (fun r hr => hk r (by simp [hr])) (fun r hr => hv r (by simp [hr])) p hp

/-- R97 as the machine checks it is R97 as the syntax states it. -/
theorem destsLegal_eq_wf (i : Instr) : destsLegal i.dests = i.wf := by
  unfold destsLegal Instr.wf Instr.check
  by_cases h : i.dests.any (· < 2) = true
  · simp only [h, if_true, Option.isNone_some]
    have : i.dests.all (fun k => decide (2 ≤ k.val)) = false := by
      rw [List.all_eq_false]
      obtain ⟨k, hk, hlt⟩ := List.any_eq_true.1 h
      have hlt' : k.val < 2 := Fin.lt_def.1 (of_decide_eq_true hlt)
      exact ⟨k, hk, by simp; omega⟩
    simp [this]
  · simp only [h]
    have : i.dests.all (fun k => decide (2 ≤ k.val)) = true := by
      rw [List.all_eq_true]
      intro k hk
      have hn : ¬ (k < 2) := fun hlt => h (List.any_eq_true.2 ⟨k, hk, by simpa using hlt⟩)
      have : ¬ k.val < 2 := fun hlt => hn (by simpa [Fin.lt_def] using hlt)
      simp; omega
    by_cases hn : i.dests.Nodup <;> simp [this, hn]

theorem destsLegal_iff (ds : List Reg) : destsLegal ds = true ↔ (∀ k ∈ ds, 2 ≤ k.val) ∧ ds.Nodup := by
  simp [destsLegal, List.all_eq_true]

theorem untouched_raise (e : CmdError) (s : State) : Untouched s (raise e s) := by simp [Untouched]
theorem untouched_finish_writeRegs (s : State) (l : List (Reg × Int)) : Untouched s (finish (writeRegs s l)) := by simp [Untouched]

/-- An error leaves what R247 says. -/
theorem failed_raise (e : CmdError) (s : State) : Failed e s (raise e s) :=
  ⟨rfl, rfl, rfl, rfl, fun _ => rfl, rfl, untouched_raise e s⟩

/-- Everything `commit` can do: an illegal destination, the result's error, or all destinations written. -/
theorem commit_cases (ds : List Reg) (r : Except CmdError (List Int)) (s : State) :
    (destsLegal ds = false ∧ commit ds r s = .next (raise .illegalCommand s)) ∨
    (destsLegal ds = true ∧ ∃ e, r = .error e ∧ commit ds r s = .next (raise e s)) ∨
    (destsLegal ds = true ∧ ∃ vs, r = .ok vs ∧ commit ds r s = .next (finish (writeRegs s (ds.zip vs)))) := by
  unfold commit
  cases h : destsLegal ds
  · exact .inl ⟨rfl, by simp⟩
  · cases r with
    | error e => exact .inr (.inl ⟨rfl, e, rfl, by simp⟩)
    | ok vs => exact .inr (.inr ⟨rfl, vs, rfl, by simp⟩)

theorem commit_illegal {ds : List Reg} (h : destsLegal ds = false) (r : Except CmdError (List Int)) (s : State) :
    commit ds r s = .next (raise .illegalCommand s) := by simp [commit, h]

theorem commit_error {ds : List Reg} (h : destsLegal ds = true) (e : CmdError) (s : State) :
    commit ds (.error e) s = .next (raise e s) := by simp [commit, h]

/-- A command whose result is there writes all of its destinations and nothing else (R98). -/
theorem commit_wrote {ds : List Reg} (h : destsLegal ds = true) (vs : List Int) (hl : ds.length = vs.length) (s : State)
    (hv : ∀ v ∈ vs, v.natAbs < Config.maxMag) : Answers (commit ds (.ok vs) s) (Wrote s · (ds.zip vs)) := by
  have hmap : (ds.zip vs).map (·.1) = ds := List.map_fst_zip (by omega)
  obtain ⟨hk, hd⟩ := (destsLegal_iff ds).1 h
  refine ⟨_, by simp only [commit, h, if_true]; rfl, ?_, ?_, by simp, ?_⟩
  · intro p hp
    rw [reg_finish]
    refine holds_writeRegs s _ (hmap.symm ▸ hd) (fun q hq => hk _ (List.of_mem_zip hq).1) (fun q hq => hv _ (List.of_mem_zip hq).2) p hp
  · intro k hk'
    rw [reg_finish]
    exact reg_writeRegs_notMem s _ k hk'
  · exact ⟨rfl, rfl, rfl, by simp, untouched_finish_writeRegs s _⟩

/-- A comparison writes `FLAGS` and nothing else (R98). -/
theorem commitFlags_wrote (f : Flags) (s : State) : Answers (commitFlags f s) (WroteFlags s · f) :=
  ⟨_, rfl, rfl, fun _ => rfl, rfl, rfl, rfl, rfl, rfl, rfl, rfl, rfl, rfl, rfl, rfl, rfl⟩

end Sys2Proof.Machine
end

