-- ==== Sys2Proof/Laws/Step.lean ====
section
/-! SUPPORT. What a step can do, said once: every command completes, and the cases of a turn and of a step. -/

namespace Sys2Proof.Machine

theorem commit_next (ds : List Reg) (r : Except CmdError (List Int)) (s : State) : ∃ t, commit ds r s = .next t := ⟨_, rfl⟩

/-- A command always answers a next state (R98: completion always comes). -/
theorem exec_next (i : Instr) (s : State) : ∃ t, exec i s = .next t := by cases i <;> exact ⟨_, rfl⟩

/-- The block's completion answers a next state. -/
theorem complete_next (s : State) : ∃ t, complete s = .next t := by
  unfold complete
  split
  · exact ⟨_, rfl⟩
  · exact exec_next _ s

/-- Everything a turn can do. -/
theorem takeTurn_cases {u : Turn} {s t : State} (h : takeTurn u s = .next t) :
    (s.rst = true ∧ t = turnInReset u s) ∨
    (s.rst = false ∧ ∃ a, u = .host a ∧ t = hostAccess a s) ∨
    (s.rst = false ∧ u = .block ∧ s.busy = true ∧ complete s = .next t) ∨
    (s.rst = false ∧ u = .block ∧ s.busy = false ∧ t = s) := by
  unfold takeTurn at h
  cases hr : s.rst
  · simp only [hr, Bool.false_eq_true, if_false] at h
    cases u with
    | host a => exact .inr (.inl ⟨rfl, a, rfl, (Host.Outcome.next.inj h).symm⟩)
    | block =>
      cases hb : s.busy
      · simp only [hb, Bool.false_eq_true, if_false] at h
        exact .inr (.inr (.inr ⟨rfl, rfl, rfl, (Host.Outcome.next.inj h).symm⟩))
      · simp only [hb, if_true] at h
        exact .inr (.inr (.inl ⟨rfl, rfl, rfl, h⟩))
  · simp only [hr, if_true] at h
    exact .inl ⟨rfl, (Host.Outcome.next.inj h).symm⟩

/-- Everything a step can do: one turn, the next of the schedule or, with none left, the block's. -/
theorem step_cases {s t : State} (h : step s = .next t) :
    ∃ u, takeTurn u (afterTurn s) = .next t ∧ (s.turns.head? = some u ∨ (s.turns = [] ∧ u = .block)) := by
  unfold step nextTurn at h
  cases ht : s.turns with
  | nil =>
    simp only [ht] at h
    have hs : afterTurn s = s := by
      unfold afterTurn
      rw [ht, List.tail_nil, ← ht]
    exact ⟨.block, by rw [hs]; exact h, .inr ⟨rfl, rfl⟩⟩
  | cons u rest =>
    simp only [ht] at h
    exact ⟨u, by rw [afterTurn, ht]; exact h, .inl rfl⟩

/-- What a command leaves alone whatever its outcome. -/
theorem commit_untouched {ds : List Reg} {r : Except CmdError (List Int)} {s t : State} (h : commit ds r s = .next t) :
    t.busy = false ∧ t.done = true ∧ t.flags = s.flags ∧ Untouched s t := by
  rcases commit_cases ds r s with ⟨_, h'⟩ | ⟨_, e, _, h'⟩ | ⟨_, vs, _, h'⟩ <;>
  · rw [h'] at h
    obtain rfl := Host.Outcome.next.inj h
    simp [Untouched]

end Sys2Proof.Machine
end

