-- ==== Sys2Proof/Laws/Commands.lean ====
section
/-! SUPPORT. Each command as the one completion it is, `commit` or `commitFlags`, so that a proof about commands goes through what
these can do (`commit_cases`, `commitFlags_wrote`) and unfolds no meaning. -/

namespace Sys2Proof.Machine

variable (d x y q r a b : Reg) (s : State)

theorem exec_cmpm : exec (.cmpm a b) s = commitFlags (compareFlags (magOf s a) (magOf s b)) s := rfl
theorem exec_eqmu : exec (.eqmu a b) s = commitFlags (equalFlags (equalWords (s.reg a) (s.reg b))) s := rfl
theorem exec_flipb : exec (.flipb d a) s = commit [d] ((flipBit (sgnOf s a) (magOf s a) (bitIndex s)).map ([·])) s := rfl
theorem exec_shw : exec (.shw d a) s = commit [d] ((shiftWords (sgnOf s a) (magOf s a) (shiftAmount s)).map ([·])) s := rfl
theorem exec_shb : exec (.shb d a) s = commit [d] ((shiftBits (sgnOf s a) (magOf s a) (shiftAmount s)).map ([·])) s := rfl
theorem exec_bor : exec (.bor d a b) s = commit [d] (.ok [((magOf s a ||| magOf s b : Nat) : Int)]) s := rfl
theorem exec_band : exec (.band d a b) s = commit [d] (.ok [((magOf s a &&& magOf s b : Nat) : Int)]) s := rfl
theorem exec_bxor : exec (.bxor d a b) s = commit [d] (.ok [((magOf s a ^^^ magOf s b : Nat) : Int)]) s := rfl
theorem exec_addm : exec (.addm d a b) s = commit [d] ((addMag (magOf s a) (magOf s b)).map ([·])) s := rfl
theorem exec_subm : exec (.subm d a b) s = commit [d] (.ok [subMag (magOf s a) (magOf s b)]) s := rfl
theorem exec_mulm : exec (.mulm d a b) s = commit [d] ((mulMag (magOf s a) (magOf s b)).map ([·])) s := rfl
theorem exec_divm :
    exec (.divm q r a b) s = commit [q, r] ((divMag (magOf s a) (magOf s b)).map fun p => [(p.1 : Int), (p.2 : Int)]) s := rfl
theorem exec_add : exec (.add d a b) s = commit [d] ((addInt (valOf s a) (valOf s b)).map ([·])) s := rfl
theorem exec_sub : exec (.sub d a b) s = commit [d] ((subInt (valOf s a) (valOf s b)).map ([·])) s := rfl
theorem exec_mul : exec (.mul d a b) s = commit [d] ((mulInt (valOf s a) (valOf s b)).map ([·])) s := rfl
theorem exec_div : exec (.div q r a b) s = commit [q, r] ((divInt (valOf s a) (valOf s b)).map fun p => [p.1, p.2]) s := rfl
theorem exec_mod : exec (.mod d a b) s = commit [d] ((modInt (valOf s a) (valOf s b)).map ([·])) s := rfl
theorem exec_gcd : exec (.gcd d x y a b) s = commit [d, x, y] (extendedGcd (valOf s a) (valOf s b)) s := rfl
theorem exec_modpow (base exp m : Reg) :
    exec (.modpow d base exp m) s = commit [d] ((modPow (valOf s base) (magOf s exp) (valOf s m)).map ([·])) s := rfl
theorem exec_mov : exec (.mov d a) s = commit [d] (.ok [valOf s a]) s := rfl
theorem exec_ldu64 (neg : Bool) :
    exec (.ldu64 d neg) s = commit [d] (.ok [if neg then -(longValue s : Int) else longValue s]) s := rfl

/-- Every command is a comparison's completion or a completion over its own destinations. -/
theorem exec_form (i : Instr) :
    (i.dests = [] ∧ ∃ f, exec i s = commitFlags f s) ∨ (i.dests ≠ [] ∧ ∃ res, exec i s = commit i.dests res s) := by
  cases i with
  | cmpm a b => exact .inl ⟨rfl, _, exec_cmpm a b s⟩
  | eqmu a b => exact .inl ⟨rfl, _, exec_eqmu a b s⟩
  | flipb d a => exact .inr ⟨List.cons_ne_nil _ _, _, exec_flipb d a s⟩
  | shw d a => exact .inr ⟨List.cons_ne_nil _ _, _, exec_shw d a s⟩
  | shb d a => exact .inr ⟨List.cons_ne_nil _ _, _, exec_shb d a s⟩
  | bor d a b => exact .inr ⟨List.cons_ne_nil _ _, _, exec_bor d a b s⟩
  | band d a b => exact .inr ⟨List.cons_ne_nil _ _, _, exec_band d a b s⟩
  | bxor d a b => exact .inr ⟨List.cons_ne_nil _ _, _, exec_bxor d a b s⟩
  | addm d a b => exact .inr ⟨List.cons_ne_nil _ _, _, exec_addm d a b s⟩
  | subm d a b => exact .inr ⟨List.cons_ne_nil _ _, _, exec_subm d a b s⟩
  | mulm d a b => exact .inr ⟨List.cons_ne_nil _ _, _, exec_mulm d a b s⟩
  | divm q r a b => exact .inr ⟨List.cons_ne_nil _ _, _, exec_divm q r a b s⟩
  | add d a b => exact .inr ⟨List.cons_ne_nil _ _, _, exec_add d a b s⟩
  | sub d a b => exact .inr ⟨List.cons_ne_nil _ _, _, exec_sub d a b s⟩
  | mul d a b => exact .inr ⟨List.cons_ne_nil _ _, _, exec_mul d a b s⟩
  | div q r a b => exact .inr ⟨List.cons_ne_nil _ _, _, exec_div q r a b s⟩
  | mod d a b => exact .inr ⟨List.cons_ne_nil _ _, _, exec_mod d a b s⟩
  | gcd d x y a b => exact .inr ⟨List.cons_ne_nil _ _, _, exec_gcd d x y a b s⟩
  | modpow d base exp m => exact .inr ⟨List.cons_ne_nil _ _, _, exec_modpow d s base exp m⟩
  | mov d a => exact .inr ⟨List.cons_ne_nil _ _, _, exec_mov d a s⟩
  | ldu64 d neg => exact .inr ⟨List.cons_ne_nil _ _, _, exec_ldu64 d s neg⟩

end Sys2Proof.Machine
end

