-- ==== Sys2Proof/Laws/Loops.lean ====
section
/-! SUPPORT. The loops of GCD and MODPOW never run out of fuel (log entry 10): their measures fall in each pass (R220, R230, R293),
so a result is one that the spec's loop condition ended. With them, what a checked product and MOD by a non-zero modulus answer. -/

namespace Sys2Proof.Machine

theorem checkCap_ok {v w : Int} (h : checkCap v = .ok w) : w = v ∧ v.natAbs < Config.maxMag := by
  unfold checkCap at h
  split at h
  · cases h
  · next hn => exact ⟨(Except.ok.inj h).symm, by omega⟩

theorem checkCap_of_lt {v : Int} (h : v.natAbs < Config.maxMag) : checkCap v = .ok v := by
  have : ¬ Config.maxMag ≤ v.natAbs := by omega
  simp [checkCap, this]

theorem checkCap_of_le {v : Int} (h : Config.maxMag ≤ v.natAbs) : checkCap v = .error .capacityExceeded := by
  simp [checkCap, h]

theorem nextOf_ok {old q cur v : Int} (h : nextOf old q cur = .ok v) : v = old - q * cur ∧ v.natAbs < Config.maxMag := by
  unfold nextOf mulInt subInt at h
  split at h
  · cases h
  · next p hp =>
    obtain ⟨rfl, _⟩ := checkCap_ok hp
    obtain ⟨rfl, hlt⟩ := checkCap_ok h
    exact ⟨rfl, hlt⟩

theorem signOf_neg_natCast {n : Nat} (h : n ≠ 0) : signOf (-(n : Int)) = -1 := by
  unfold signOf; rw [if_pos (by omega)]

theorem signOf_natCast (n : Nat) : signOf (n : Int) = 1 := by
  unfold signOf; rw [if_neg (by omega)]

/-- DIV's quotient and remainder are the truncating ones of integers (R194). -/
theorem divInt_of_ne {x y : Int} (h : y ≠ 0) : divInt x y = .ok (x.tdiv y, x.tmod y) := by
  have hy : ¬ y.natAbs = 0 := by omega
  unfold divInt
  rw [if_neg hy]
  split
  · next hlt =>
    have hq : x.tdiv y = 0 := by
      obtain ⟨n, rfl | rfl⟩ := Int.eq_nat_or_neg x <;> obtain ⟨m, rfl | rfl⟩ := Int.eq_nat_or_neg y <;>
      · simp only [Int.natAbs_neg, Int.natAbs_natCast] at hlt
        simp [Int.neg_tdiv, Int.tdiv_neg]
        exact_mod_cast Nat.div_eq_of_lt hlt
    have hr := Int.mul_tdiv_add_tmod x y
    rw [hq] at hr ⊢
    simp only [Int.mul_zero, Int.zero_add] at hr
    rw [hr]
  · next hge =>
    have hx : x.natAbs ≠ 0 := by omega
    obtain ⟨n, rfl | rfl⟩ := Int.eq_nat_or_neg x <;> obtain ⟨m, rfl | rfl⟩ := Int.eq_nat_or_neg y <;>
    · simp only [Int.natAbs_neg, Int.natAbs_natCast] at hx hy ⊢
      simp [signOf_natCast, signOf_neg_natCast hx, signOf_neg_natCast hy, Int.neg_tdiv, Int.tdiv_neg, Int.neg_tmod, Int.tmod_neg,
        Int.tmod_eq_emod_of_nonneg (Int.natCast_nonneg n)]

/-- Euclid's measure falls (R220, R293): one pass leaves a smaller |r|. -/
theorem gcdStep_r_lt {p p' : GcdPairs} (hr : p.r ≠ 0) (h : gcdStep p = .ok p') : p'.r.natAbs < p.r.natAbs := by
  unfold gcdStep at h
  rw [divInt_of_ne hr] at h
  simp only at h
  split at h
  · cases h
  · next newR hR =>
    split at h
    · cases h
    · split at h
      · cases h
      · obtain rfl := Except.ok.inj h
        obtain ⟨rfl, _⟩ := nextOf_ok hR
        have : p.oldR - p.oldR.tdiv p.r * p.r = p.oldR.tmod p.r := by
          have := Int.mul_tdiv_add_tmod p.oldR p.r
          rw [Int.mul_comm] at this
          omega
        rw [this, Int.natAbs_tmod]
        exact Nat.mod_lt _ (by omega)

/-- With |r| passes of fuel the loop ends as R220 says, with `r` = 0. -/
theorem gcdLoop_ends {n : Nat} {p p' : GcdPairs} (hn : p.r.natAbs ≤ n) (h : gcdLoop n p = .ok p') : p'.r = 0 := by
  induction n generalizing p with
  | zero =>
    obtain rfl := Except.ok.inj h
    omega
  | succ n ih =>
    unfold gcdLoop at h
    split at h
    · next h0 =>
      obtain rfl := Except.ok.inj h
      omega
    · next h0 =>
      split at h
      · cases h
      · next q hq =>
        have := gcdStep_r_lt (by omega) hq
        exact ih (by omega) h

/-- The exponent at least halves in each pass (R230). -/
theorem powStep_e {m : Int} {p p' : PowWork} (h : powStep m p = .ok p') : p'.e = p.e / 2 := by
  unfold powStep at h
  split at h
  · cases h
  · split at h
    · cases h
    · obtain rfl := Except.ok.inj h
      simp only
      split <;> omega

/-- With `e` passes of fuel the loop ends as R230 says, with `e` = 0. -/
theorem powLoop_ends {m : Int} {n : Nat} {p p' : PowWork} (hn : p.e ≤ n) (h : powLoop m n p = .ok p') : p'.e = 0 := by
  induction n generalizing p with
  | zero =>
    obtain rfl := Except.ok.inj h
    omega
  | succ n ih =>
    unfold powLoop at h
    split at h
    · next h0 =>
      obtain rfl := Except.ok.inj h
      exact h0
    · next h0 =>
      split at h
      · cases h
      · next q hq =>
        have := powStep_e hq
        exact ih (by omega) h

/-- MOD by a non-zero modulus answers the value of its three branches. -/
theorem modInt_of_ne {x m : Int} (h : m ≠ 0) : modInt x m = .ok (reduced x m) := by
  unfold modInt reduced
  rw [if_neg (by omega)]
  split
  · rfl
  · split <;> rfl

theorem natAbs_reduced_lt {x m : Int} (h : m ≠ 0) : (reduced x m).natAbs < m.natAbs := by
  unfold reduced
  split
  · rw [Int.natAbs_natCast]; exact Nat.mod_lt _ (by omega)
  · split
    · simp; omega
    · omega

theorem mulMod_of_lt {x y m : Int} (hm : m ≠ 0) (h : (x * y).natAbs < Config.maxMag) :
    mulMod x y m = .ok (reduced (x * y) m) := by
  unfold mulMod mulInt; rw [checkCap_of_lt h]; exact modInt_of_ne hm

theorem mulMod_of_le {x y m : Int} (h : Config.maxMag ≤ (x * y).natAbs) : mulMod x y m = .error .capacityExceeded := by
  unfold mulMod mulInt; rw [checkCap_of_le h]

/-- Fuel beyond the exponent makes no difference. -/
theorem powLoop_fuel {m : Int} {n k : Nat} {p : PowWork} (hn : p.e ≤ n) (hk : p.e ≤ k) : powLoop m n p = powLoop m k p := by
  induction n generalizing p k with
  | zero =>
    have h0 : p.e = 0 := by omega
    cases k <;> simp [powLoop, h0]
  | succ n ih =>
    by_cases h0 : p.e = 0
    · cases k <;> simp [powLoop, h0]
    · obtain ⟨k, rfl⟩ : ∃ j, k = j + 1 := ⟨k - 1, by omega⟩
      simp only [powLoop, h0, if_false]
      split
      · rfl
      · next q hq =>
        have := powStep_e hq
        exact ih (by omega) (by omega)

/-- Fuel beyond |r| makes no difference. -/
theorem gcdLoop_fuel {n k : Nat} {p : GcdPairs} (hn : p.r.natAbs ≤ n) (hk : p.r.natAbs ≤ k) : gcdLoop n p = gcdLoop k p := by
  induction n generalizing p k with
  | zero =>
    have h0 : p.r.natAbs = 0 := by omega
    cases k <;> simp [gcdLoop, h0]
  | succ n ih =>
    by_cases h0 : p.r.natAbs = 0
    · cases k <;> simp [gcdLoop, h0]
    · obtain ⟨k, rfl⟩ : ∃ j, k = j + 1 := ⟨k - 1, by omega⟩
      simp only [gcdLoop, h0, if_false]
      split
      · rfl
      · next q hq =>
        have := gcdStep_r_lt (by omega) hq
        exact ih (by omega) (by omega)

end Sys2Proof.Machine
end

