-- ==== Sys2Proof/Laws/PerInstr.lean ====
section
/-! SUPPORT. The fields of an encoded command, per command: reading the fields of a command's word gives the fields it was made from (R91). -/

namespace Sys2Proof

/-- The number a word of given fields writes (R104). -/
theorem toNat_wordOf (f : Fields) :
    (wordOf f).toNat = f.op.toNat * 2 ^ 24 + f.rd0.val * 2 ^ 21 + f.rd1.val * 2 ^ 18 + f.rd2.val * 2 ^ 15 + f.rs0.val * 2 ^ 12
      + f.rs1.val * 2 ^ 9 + f.rs2.val * 2 ^ 6 + f.zero.toNat * 2 + f.sg.toNat := by
  have h0 := f.op.isLt
  have h1 := f.rd0.isLt
  have h2 := f.rd1.isLt
  have h3 := f.rd2.isLt
  have h4 := f.rs0.isLt
  have h5 := f.rs1.isLt
  have h6 := f.rs2.isLt
  have h7 := f.zero.isLt
  have h8 := f.sg.toNat_le
  rw [wordOf, BitVec.toNat_ofNat, Nat.mod_eq_of_lt]
  omega

/-- The fields of a word made from fields are those fields (R91). -/
theorem fieldsOf_wordOf (f : Fields) : fieldsOf (wordOf f) = f := by
  have hw := toNat_wordOf f
  have h0 := f.op.isLt
  have h1 := f.rd0.isLt
  have h2 := f.rd1.isLt
  have h3 := f.rd2.isLt
  have h4 := f.rs0.isLt
  have h5 := f.rs1.isLt
  have h6 := f.rs2.isLt
  have h7 := f.zero.isLt
  have h8 := f.sg.toNat_le
  have e0 : BitVec.ofNat 8 ((wordOf f).toNat / 2 ^ 24) = f.op :=
    BitVec.eq_of_toNat_eq (by rw [BitVec.toNat_ofNat]; omega)
  have e1 : selectorAt (wordOf f) 21 = f.rd0 := Fin.ext (by rw [selectorAt, Fin.val_ofNat]; omega)
  have e2 : selectorAt (wordOf f) 18 = f.rd1 := Fin.ext (by rw [selectorAt, Fin.val_ofNat]; omega)
  have e3 : selectorAt (wordOf f) 15 = f.rd2 := Fin.ext (by rw [selectorAt, Fin.val_ofNat]; omega)
  have e4 : selectorAt (wordOf f) 12 = f.rs0 := Fin.ext (by rw [selectorAt, Fin.val_ofNat]; omega)
  have e5 : selectorAt (wordOf f) 9 = f.rs1 := Fin.ext (by rw [selectorAt, Fin.val_ofNat]; omega)
  have e6 : selectorAt (wordOf f) 6 = f.rs2 := Fin.ext (by rw [selectorAt, Fin.val_ofNat]; omega)
  have e7 : BitVec.ofNat 5 ((wordOf f).toNat / 2) = f.zero :=
    BitVec.eq_of_toNat_eq (by rw [BitVec.toNat_ofNat]; omega)
  have e8 : decide ((wordOf f).toNat % 2 = 1) = f.sg := by
    rw [hw]
    cases hs : f.sg
    · rw [decide_eq_false_iff_not, Bool.toNat_false]; omega
    · rw [decide_eq_true_iff, Bool.toNat_true]; omega
  simp only [fieldsOf, e0, e1, e2, e3, e4, e5, e6, e7, e8]

namespace Laws.EncodedFields

/-- Reading the fields of the command's word gives the command's fields. -/
def Statement (i : Instr) : Prop := fieldsOf (encode i) = fieldsOfInstr i

theorem cmpm (a b : Reg) : Statement (.cmpm a b) := fieldsOf_wordOf _
theorem eqmu (a b : Reg) : Statement (.eqmu a b) := fieldsOf_wordOf _
theorem flipb (d a : Reg) : Statement (.flipb d a) := fieldsOf_wordOf _
theorem shw (d a : Reg) : Statement (.shw d a) := fieldsOf_wordOf _
theorem shb (d a : Reg) : Statement (.shb d a) := fieldsOf_wordOf _
theorem bor (d a b : Reg) : Statement (.bor d a b) := fieldsOf_wordOf _
theorem band (d a b : Reg) : Statement (.band d a b) := fieldsOf_wordOf _
theorem bxor (d a b : Reg) : Statement (.bxor d a b) := fieldsOf_wordOf _
theorem addm (d a b : Reg) : Statement (.addm d a b) := fieldsOf_wordOf _
theorem subm (d a b : Reg) : Statement (.subm d a b) := fieldsOf_wordOf _
theorem mulm (d a b : Reg) : Statement (.mulm d a b) := fieldsOf_wordOf _
theorem divm (q r a b : Reg) : Statement (.divm q r a b) := fieldsOf_wordOf _
theorem add (d a b : Reg) : Statement (.add d a b) := fieldsOf_wordOf _
theorem sub (d a b : Reg) : Statement (.sub d a b) := fieldsOf_wordOf _
theorem mul (d a b : Reg) : Statement (.mul d a b) := fieldsOf_wordOf _
theorem div (q r a b : Reg) : Statement (.div q r a b) := fieldsOf_wordOf _
theorem mod (d a b : Reg) : Statement (.mod d a b) := fieldsOf_wordOf _
theorem gcd (d x y a b : Reg) : Statement (.gcd d x y a b) := fieldsOf_wordOf _
theorem modpow (d base exp mod : Reg) : Statement (.modpow d base exp mod) := fieldsOf_wordOf _
theorem mov (d a : Reg) : Statement (.mov d a) := fieldsOf_wordOf _
theorem ldu64 (d : Reg) (neg : Bool) : Statement (.ldu64 d neg) := fieldsOf_wordOf _

end Laws.EncodedFields

end Sys2Proof
end

