-- ==== Sys2Proof/Laws/Window.lean ====
section
/-! SUPPORT. The register window: where each address leads (R35, R61), and what a read and a write can change (R62, R63, R67). -/

namespace Sys2Proof.Machine

/-- A control address (R35). -/
theorem locate_metaAddr (k : Reg) : locate (BitVec.ofNat 13 (metaAddr k)) = .metaOf k := by
  fin_cases k <;> decide

/-- A BigNum word address (R61). -/
theorem locate_wordAddr (k : Reg) (i : Nat) (hi : i < Config.cap) : locate (BitVec.ofNat 13 (wordAddr k i)) = .word k i := by
  have hk := k.isLt
  simp only [Config.cap] at hi
  have hn : (BitVec.ofNat 13 (wordAddr k i)).toNat = 0x1000 + k.val * 0x200 + i := by
    rw [BitVec.toNat_ofNat, wordAddr, Nat.mod_eq_of_lt]
    omega
  have h1 : (0x1000 + k.val * 0x200 + i - 0x1000) / 0x200 = k.val := by omega
  have h2 : (0x1000 + k.val * 0x200 + i - 0x1000) % 0x200 = i := by omega
  have h3 : Fin.ofNat 8 k.val = k := Fin.ext (by rw [Fin.val_ofNat]; omega)
  unfold locate
  simp only [hn, h1, h2, h3]
  repeat rw [if_neg (by omega)]

/-- A reserved address (R61). -/
theorem locate_reserved (a : Addr) (h1 : 0x10 ≤ a.toNat) (h2 : a.toNat < 0x1000) : locate a = .reserved := by
  unfold locate
  simp only
  repeat rw [if_neg (by omega)]
  rw [if_pos h2]

/-- A read changes the port's read data and, for an any value, the count of free values; the block's state not at all (R62). -/
theorem hostRead_cases (a : Addr) (s : State) :
    (∃ v, readLocation s (locate a) = some v ∧ hostRead a s = { s with readData := v }) ∨
    (readLocation s (locate a) = none ∧ hostRead a s = readAny s) := by
  unfold hostRead
  cases h : readLocation s (locate a) with
  | some v => exact .inl ⟨v, rfl, rfl⟩
  | none => exact .inr ⟨rfl, rfl⟩

/-- Everything a write to a BigNum location can do (R63, R65, R67). -/
theorem writeBigNum_cases (k : Reg) (f : BigNum → BigNum) (s : State) :
    (2 ≤ k.val ∧ s.busy = false ∧ writeBigNum k f s = s.setReg k (f (s.reg k))) ∨
    (2 ≤ k.val ∧ s.busy = true ∧ writeBigNum k f s = dropBusy s) ∨
    (k.val < 2 ∧ s.busy = false ∧ writeBigNum k f s = s) ∨
    (k.val < 2 ∧ s.busy = true ∧ writeBigNum k f s = dropReadOnlyBusy s) := by
  unfold writeBigNum
  by_cases hk : 2 ≤ k.val <;> cases hb : s.busy
  · exact .inl ⟨hk, rfl, by simp [hk]⟩
  · exact .inr (.inl ⟨hk, rfl, by simp [hk]⟩)
  · exact .inr (.inr (.inl ⟨by omega, rfl, by simp [hk]⟩))
  · exact .inr (.inr (.inr ⟨by omega, rfl, by simp [hk]⟩))

/-- Everything a host write can do, by the location it names: the whole of the block's state that a write can change. -/
theorem writeLocation_cases (s : State) (v : Word) (l : Location) :
    writeLocation s v l = s ∨ writeLocation s v l = dropBusy s ∨ writeLocation s v l = dropReadOnlyBusy s ∨
    (s.busy = false ∧ writeLocation s v l = accept v s) ∨
    (s.busy = false ∧ writeLocation s v l = { s with done := false }) ∨
    (∃ b, writeLocation s v l = { s with ie := b }) ∨
    (s.busy = false ∧ (writeLocation s v l = { s with arg0 := v } ∨ writeLocation s v l = { s with arg1 := v })) ∨
    writeLocation s v l = { s with sticky := s.sticky.clear v } ∨
    (s.busy = false ∧ ∃ k r, writeLocation s v l = s.setReg k r) := by
  cases hb : s.busy <;> cases l <;> simp only [writeLocation, writeBigNum, hb] <;> grind

/-- A read, a write or a turn of the block leaves the reset pin as it is. -/
@[simp] theorem rst_writeLocation (s : State) (v : Word) (l : Location) : (writeLocation s v l).rst = s.rst := by
  rcases writeLocation_cases s v l with h | h | h | ⟨_, h⟩ | ⟨_, h⟩ | ⟨_, h⟩ | ⟨_, h | h⟩ | h | ⟨_, _, _, h⟩ <;> rw [h] <;> simp

end Sys2Proof.Machine
end

