-- ==== Sys2Proof/Tests/Slice0.lean ====
section
/-! SUPPORT. Tests on single steps, expected results from 95_test_vectors.md and the rules' examples; the WellFormed smoke test;
decoding by words written out bit by bit; and, for each statement with hypotheses, a witness that meets them. -/

namespace Sys2Proof.Tests

-- One theorem after another: in parallel their thread stacks together exceed the check's memory limit.
set_option Elab.async false

open Sys2Proof.Machine

/-! ### Helpers -/

/-- The reset state with `B2` and `B3` holding two values. -/
def withAB (a b : Int) : State := writeReg (writeReg State.reset 2 a) 3 b

/-- The state with `ARG0` holding a signed amount. -/
def withArg (s : State) (n : Int) : State := { s with arg0 := BitVec.ofInt 32 n }

/-- A register image as the vectors write it: `sg`, `top`, words 0 to `top`. -/
def image (r : BigNum) : Bool × Nat × List Nat := (r.sg, r.top.toNat, (r.w.take (r.top.toNat + 1)).map (·.toNat))

/-- A register the host loaded with these words, `top` the last of them. -/
def loaded (neg : Bool) (ws : List Word) : BigNum where
  w := ws.take Config.cap ++ List.replicate (Config.cap - ws.length) 0
  top := BitVec.ofNat 9 (ws.length - 1)
  sg := neg
  len := by simp; omega

theorem reg_withAB_two (a b : Int) : (withAB a b).reg 2 = pack a := by
  rw [withAB, reg_writeReg_ne _ _ _ _ (by decide), writeReg, reg_setReg_self _ _ _ (by decide)]

theorem reg_withAB_three (a b : Int) : (withAB a b).reg 3 = pack b := by
  rw [withAB, writeReg, reg_setReg_self _ _ _ (by decide)]

theorem magOf_withAB {a b : Int} (ha : a.natAbs < Config.maxMag) (hb : b.natAbs < Config.maxMag) :
    magOf (withAB a b) 2 = a.natAbs ∧ magOf (withAB a b) 3 = b.natAbs := by
  rw [magOf, magOf, reg_withAB_two, reg_withAB_three, mag_pack ha, mag_pack hb]
  exact ⟨rfl, rfl⟩

theorem valOf_withAB {a b : Int} (ha : a.natAbs < Config.maxMag) (hb : b.natAbs < Config.maxMag) :
    valOf (withAB a b) 2 = a ∧ valOf (withAB a b) 3 = b := by
  rw [valOf, valOf, reg_withAB_two, reg_withAB_three, val_pack ha, val_pack hb]
  exact ⟨rfl, rfl⟩

/-- What one outcome leaves in `STATUS` and in some registers. -/
def after (o : Outcome) (ks : List Reg) : Option (Nat × List (Bool × Nat × List Nat)) :=
  match o with
  | .next t => some ((statusWord t).toNat, ks.map fun k => image (t.reg k))
  | _ => none

/-- What one outcome leaves in `STATUS` and `FLAGS`. -/
def flagsAfter (o : Outcome) : Option (Nat × Nat) :=
  match o with
  | .next t => some ((statusWord t).toNat, (flagsWord t.flags).toNat)
  | _ => none

/-- The word an outcome leaves on the host port. -/
def readAfter (o : Outcome) : Option Nat :=
  match o with
  | .next t => some t.readData.toNat
  | _ => none

/-- One step of a state whose next turn is this. -/
def turnStep (s : State) (u : Turn) : Outcome := step { s with turns := u :: s.turns }

/-- One step of a state with this command word in flight. -/
def run (s : State) (w : Nat) : Outcome := step (s.withFetchWord 32 w)

/-! ### WellFormed: a term for each check (R97) -/

theorem test_wf_rejects_constant_destination :
    (Instr.add 0 2 3).check = some .destinationIsConstant ∧ (Instr.mov 1 2).check = some .destinationIsConstant
      ∧ (Instr.gcd 4 5 1 2 3).check = some .destinationIsConstant ∧ (Instr.add 0 2 3).wf = false := by decide

theorem test_wf_rejects_equal_destinations :
    (Instr.div 4 4 2 3).check = some .destinationsCoincide ∧ (Instr.divm 4 4 2 3).check = some .destinationsCoincide
      ∧ (Instr.gcd 4 5 4 2 3).check = some .destinationsCoincide ∧ (Instr.div 4 4 2 3).wf = false := by decide

theorem test_wf_accepts_aliasing_and_constant_sources :
    (Instr.divm 2 3 2 3).wf = true ∧ (Instr.gcd 4 5 6 0 0).wf = true ∧ (Instr.cmpm 0 1).wf = true := by decide

/-! ### Decoding: words written out field by field (R91, R93): op, rd0, rd1, rd2, rs0, rs1, rs2, zero, sg -/

theorem test_decode_comparison :
    decode 0b00010000_000_000_000_010_011_000_00000_0 = .ok (.cmpm 2 3)
      ∧ decode 0b00010001_000_000_000_111_000_000_00000_0 = .ok (.eqmu 7 0) := by decide

theorem test_decode_bit_and_logic :
    decode 0b00100000_011_000_000_010_000_000_00000_0 = .ok (.flipb 3 2)
      ∧ decode 0b00100001_101_000_000_110_000_000_00000_0 = .ok (.shw 5 6)
      ∧ decode 0b00100010_011_000_000_010_000_000_00000_0 = .ok (.shb 3 2)
      ∧ decode 0b00100011_100_000_000_010_011_000_00000_0 = .ok (.bor 4 2 3)
      ∧ decode 0b00100100_100_000_000_010_001_000_00000_0 = .ok (.band 4 2 1)
      ∧ decode 0b00100101_110_000_000_101_111_000_00000_0 = .ok (.bxor 6 5 7) := by decide

theorem test_decode_unsigned_core :
    decode 0b00110000_100_000_000_010_011_000_00000_0 = .ok (.addm 4 2 3)
      ∧ decode 0b00110001_100_000_000_011_010_000_00000_0 = .ok (.subm 4 3 2)
      ∧ decode 0b00110010_111_000_000_010_110_000_00000_0 = .ok (.mulm 7 2 6)
      ∧ decode 0b00110011_010_011_000_100_101_000_00000_0 = .ok (.divm 2 3 4 5) := by decide

theorem test_decode_signed_wrapper :
    decode 0b01000000_100_000_000_010_011_000_00000_0 = .ok (.add 4 2 3)
      ∧ decode 0b01000001_100_000_000_000_010_000_00000_0 = .ok (.sub 4 0 2)
      ∧ decode 0b01000010_010_000_000_010_010_000_00000_0 = .ok (.mul 2 2 2)
      ∧ decode 0b01000011_100_101_000_010_011_000_00000_0 = .ok (.div 4 5 2 3) := by decide

theorem test_decode_mod_gcd_modpow :
    decode 0b01010000_100_000_000_010_011_000_00000_0 = .ok (.mod 4 2 3)
      ∧ decode 0b01100000_100_101_110_010_011_000_00000_0 = .ok (.gcd 4 5 6 2 3)
      ∧ decode 0b01110000_101_000_000_010_011_100_00000_0 = .ok (.modpow 5 2 3 4) := by decide

theorem test_decode_construction :
    decode 0b10000000_010_000_000_001_000_000_00000_0 = .ok (.mov 2 1)
      ∧ decode 0b10000001_010_000_000_000_000_000_00000_1 = .ok (.ldu64 2 true) := by decide

theorem test_decode_refuses_by_name :
    decode 0 = .error .unknownOpcode ∧ decode 0b00010010_000_000_000_010_011_000_00000_0 = .error .unknownOpcode
      ∧ decode 0x10002601 = .error .unusedFieldSet ∧ decode 0x10202600 = .error .unusedFieldSet
      ∧ decode 0x40802640 = .error .unusedFieldSet ∧ decode 0x81400002 = .error .unusedFieldSet := by decide

/-- The opcodes, `match` and `mask` columns of R93. -/
theorem test_opcode_map_masks :
    opcodeMap.map matchOf = [0x10000000, 0x11000000, 0x20000000, 0x21000000, 0x22000000, 0x23000000, 0x24000000, 0x25000000,
      0x30000000, 0x31000000, 0x32000000, 0x33000000, 0x40000000, 0x41000000, 0x42000000, 0x43000000, 0x50000000, 0x60000000,
      0x70000000, 0x80000000, 0x81000000]
    ∧ opcodeMap.map maskOf = [0xFFFF81FF, 0xFFFF81FF, 0xFF1F8FFF, 0xFF1F8FFF, 0xFF1F8FFF, 0xFF1F81FF, 0xFF1F81FF, 0xFF1F81FF,
      0xFF1F81FF, 0xFF1F81FF, 0xFF1F81FF, 0xFF0381FF, 0xFF1F81FF, 0xFF1F81FF, 0xFF1F81FF, 0xFF0381FF, 0xFF1F81FF, 0xFF0001FF,
      0xFF1F803F, 0xFF1F8FFF, 0xFF1FFFFE] := by decide +kernel

theorem test_opcodes_pairwise_different : (opcodeMap.map (·.op)).Nodup := by decide

theorem test_decodeTableWord : decodeTableWord 32 0x60972600 = some (.gcd 4 5 6 2 3) ∧ decodeTableWord 32 0 = none := by decide

/-! ### Construction (vectors 2.1) -/

/-- Vector 2.1.5: a denormalised negative source is copied trimmed. -/
theorem test_mov_trims :
    after (run (State.reset.setReg 3 (loaded true [7, 0, 0])) 0x80403000) [2] = some (0x02, [(true, 0, [7])]) := by decide +kernel

/-- Vector 2.1.6: minus zero is copied as plus zero. -/
theorem test_mov_minus_zero :
    after (run (State.reset.setReg 2 (loaded true [0, 0, 0, 0])) 0x80402000) [2] = some (0x02, [(false, 0, [0])]) := by decide +kernel

/-- Vector 2.1.2. -/
theorem test_ldu64_negative :
    after (run { State.reset with arg0 := 1, arg1 := 2 } 0x81800001) [4] = some (0x02, [(true, 1, [1, 2])]) := by decide +kernel

/-- Vector 2.1.3: no minus zero. -/
theorem test_ldu64_zero : after (run State.reset 0x81800001) [4] = some (0x02, [(false, 0, [0])]) := by decide +kernel

/-! ### Comparator (vectors 2.2) -/

/-- Vector 2.2.3: signs are ignored. -/
theorem test_cmpm_ignores_signs : flagsAfter (run (withAB (-5) 3) 0x10002600) = some (0x02, 4) := by decide +kernel

/-- Vector 2.2.5: operands are trimmed before they are compared. -/
theorem test_cmpm_trims :
    flagsAfter (run ((State.reset.setReg 2 (loaded false [5, 0])).setReg 3 (loaded false [5])) 0x10002600) = some (0x02, 2) := by
  decide +kernel

/-- Vector 2.2.11: the zero test of a denormalised minus zero. -/
theorem test_eqmu_zero_test :
    flagsAfter (run (State.reset.setReg 2 (loaded true [0, 0, 0, 0])) 0x11002000) = some (0x02, 2) := by decide +kernel

/-- Vector 2.2.12: not equal says nothing of the order. -/
theorem test_eqmu_unequal : flagsAfter (run (withAB 6 7) 0x11002600) = some (0x02, 0) := by decide +kernel

/-! ### Bit and logic (vectors 2.3) -/

/-- Vector 2.3.6: the sign bit of a minus zero shows. -/
theorem test_flipb_minus_zero :
    after (run (withArg (State.reset.setReg 2 (loaded true [0])) 5) 0x20602000) [3] = some (0x02, [(true, 0, [0x20])]) := by
  decide +kernel

/-- Vector 2.3.8: index 16384 is beyond the capacity. -/
theorem test_flipb_out_of_range :
    after (run (withArg State.reset 16384) 0x20400000) [2] = some (0x42, [(false, 0, [0])]) := by decide +kernel

/-- Vector 2.3.9. -/
theorem test_shw_up :
    after (run (withArg (withAB 0xAAAABBBBCCCCDDDD 0) 2) 0x21602000) [3]
      = some (0x02, [(false, 3, [0, 0, 0xCCCCDDDD, 0xAAAABBBB])]) := by decide +kernel

/-- Vector 2.3.11: the most negative amount gives zero and no error. -/
theorem test_shw_lowest_amount :
    after (run (withArg (withAB 0xAAAABBBBCCCCDDDD 0) (-2147483648)) 0x21602000) [3] = some (0x02, [(false, 0, [0])]) := by
  decide +kernel

/-- Vector 2.3.20: the carry makes a new top word. -/
theorem test_shb_carry_word :
    after (run (withArg (withAB 0x80000001 0) 33) 0x22602000) [3] = some (0x02, [(false, 2, [0, 2, 1])]) := by decide +kernel

/-- Vector 2.3.26: an in-range amount whose result is too long. -/
theorem test_shb_capacity :
    after (run (withArg (withAB 7 9) 16382) 0x22602000) [3] = some (0x12, [(false, 0, [9])]) := by decide +kernel

/-- Vector 2.3.29. -/
theorem test_bor : after (run (withAB 0x0F0F 0x1000000F0) 0x23802600) [4] = some (0x02, [(false, 1, [0xFFF, 1])]) := by decide +kernel

/-- Vector 2.3.30: the result is trimmed. -/
theorem test_band : after (run (withAB 0x1000000FF 0xF0F0) 0x24802600) [4] = some (0x02, [(false, 0, [0xF0])]) := by decide +kernel

/-- Vector 2.3.33: equal high words vanish. -/
theorem test_bxor :
    after (run (withAB 0xFFFFFFFF00000001 0xFFFFFFFF00000000) 0x25802600) [4] = some (0x02, [(false, 0, [1])]) := by decide +kernel

/-! ### Unsigned core (vectors 2.4) -/

/-- Vector 2.4.1: the carry ripples into a new top word. -/
theorem test_addm_carry :
    after (run (withAB 0xFFFFFFFFFFFFFFFFFFFFFFFF 1) 0x30802600) [4] = some (0x02, [(false, 3, [0, 0, 0, 1])]) := by decide +kernel

/-- Vector 2.4.3: one more than the largest magnitude. -/
theorem test_addm_capacity :
    after (run (State.reset.setReg 2 (loaded false (List.replicate 512 0xFFFFFFFF))) 0x30802200) [4]
      = some (0x12, [(false, 0, [0])]) := by decide +kernel

/-- Vector 2.4.7: the signs of the sources have no effect. -/
theorem test_subm_ignores_signs : after (run (withAB (-3) (-10)) 0x31802600) [4] = some (0x02, [(true, 0, [7])]) := by decide +kernel

/-- Vector 2.4.9. -/
theorem test_mulm :
    after (run (withAB 0xFFFFFFFFFFFFFFFF 0xFFFFFFFF) 0x32802600) [4] = some (0x02, [(false, 2, [1, 0xFFFFFFFF, 0xFFFFFFFE])]) := by
  decide +kernel

/-- Vector 2.4.25: the destinations are the sources. -/
theorem test_divm_aliased :
    after (run (withAB 17 5) 0x334C2600) [2, 3] = some (0x02, [(false, 0, [3]), (false, 0, [2])]) := by decide +kernel

/-- Vector 2.4.23. -/
theorem test_divm_by_zero :
    after (run (withAB 7 0) 0x33942600) [4, 5] = some (0x22, [(false, 0, [0]), (false, 0, [0])]) := by decide +kernel

/-! ### Signed wrapper (vectors 2.5), modulo (2.6), GCD (2.7), MODPOW (2.8) -/

/-- The example of R191. -/
theorem test_add : after (run (withAB (-10) 3) 0x40802600) [4] = some (0x02, [(true, 0, [7])]) := by decide +kernel

/-- Vector 2.5.8: a zero sum is plus zero. -/
theorem test_add_to_zero : after (run (withAB (-5) 5) 0x40802600) [4] = some (0x02, [(false, 0, [0])]) := by decide +kernel

/-- Vector 2.5.6. -/
theorem test_sub : after (run (withAB (-3) 5) 0x41802600) [4] = some (0x02, [(true, 0, [8])]) := by decide +kernel

/-- Vector 2.5.18. -/
theorem test_mul :
    after (run (withAB (-0xFFFFFFFF) 0xFFFFFFFF) 0x42802600) [4] = some (0x02, [(true, 1, [1, 0xFFFFFFFE])]) := by decide +kernel

/-- Vector 2.5.2: truncation, and the remainder with the dividend's sign. -/
theorem test_div : after (run (withAB (-7) 2) 0x43942600) [4, 5] = some (0x02, [(true, 0, [3]), (true, 0, [1])]) := by decide +kernel

/-- Vector 2.5.6: the short-circuit keeps the dividend. -/
theorem test_div_short_circuit :
    after (run (withAB (-3) 5) 0x43942600) [4, 5] = some (0x02, [(false, 0, [0]), (true, 0, [3])]) := by decide +kernel

/-- Vector 2.6.5: neither the mathematical nor the truncated remainder. -/
theorem test_mod_ignores_signs : after (run (withAB (-7) 5) 0x50802600) [4] = some (0x02, [(false, 0, [2])]) := by decide +kernel

/-- Vector 2.6.9: a smaller dividend is returned with its sign. -/
theorem test_mod_less : after (run (withAB (-3) 5) 0x50802600) [4] = some (0x02, [(true, 0, [3])]) := by decide +kernel

/-- Vector 2.7.1. -/
theorem test_gcd :
    after (run (withAB 240 46) 0x60972600) [4, 5, 6] = some (0x02, [(false, 0, [2]), (true, 0, [9]), (false, 0, [47])]) := by
  decide +kernel

/-- Vector 2.7.5: d may be negative. -/
theorem test_gcd_negative :
    after (run (withAB (-6) 4) 0x60972600) [4, 5, 6] = some (0x02, [(true, 0, [2]), (false, 0, [1]), (false, 0, [1])]) := by
  decide +kernel

/-- Source vector S1 (2.8.1). -/
theorem test_modpow :
    after (run (writeReg (withAB 4 13) 4 497) 0x70A02700) [5] = some (0x02, [(false, 0, [445])]) := by decide +kernel

/-- Vector 2.8.17: the last, unused squaring overflows. -/
theorem test_modpow_capacity :
    after (run (writeReg (withAB ((2 ^ 8192 : Nat) : Int) 1) 4 3) 0x70A02700) [5] = some (0x12, [(false, 0, [0])]) := by
  decide +kernel

/-! ### Errors, the window, reset -/

/-- Vector 2.4.26: coinciding destinations. -/
theorem test_equal_destinations : after (run (withAB 1 1) 0x33902600) [4] = some (0x52, [(false, 0, [0])]) := by decide +kernel

/-- Vector 2.5.22: a constant destination. -/
theorem test_constant_destination : after (run (withAB 1 1) 0x40202600) [1] = some (0x52, [(false, 0, [1])]) := by decide +kernel

/-- Vector 2.1.10: `META2` keeps `SG` and `TOP` only. -/
theorem test_meta_write :
    after (turnStep State.reset (writeAt 0x000A 0xFFFFFFFF)) [] = some (0, [])
      ∧ metaWord (setMeta BigNum.zero 0xFFFFFFFF) = 0x800001FF := by decide +kernel

/-- Vector 2.1.11: reads of `B0`, `META0` and `CAPACITY`. -/
theorem test_constant_reads :
    readAfter (turnStep State.reset (readAt 0x1000)) = some 0 ∧ readAfter (turnStep State.reset (readAt 0x1200)) = some 1
      ∧ readAfter (turnStep State.reset (readAt 0x0008)) = some 0 ∧ readAfter (turnStep State.reset (readAt 0x0007)) = some 0x200 := by
  decide +kernel

/-- Vector 2.1.11: writes to `B0`, `META0` and `CAPACITY` change nothing. -/
theorem test_read_only_writes :
    hostWrite (BitVec.ofNat 13 0x1000) 5 State.reset = State.reset ∧ hostWrite (BitVec.ofNat 13 0x0008) 0x80000001 State.reset = State.reset
      ∧ hostWrite (BitVec.ofNat 13 0x0007) 0 State.reset = State.reset := by decide +kernel

/-- R61: register addresses of 95_test_vectors.md. -/
theorem test_addresses :
    locate 0x1400 = .word 2 0 ∧ locate 0x1A00 = .word 5 0 ∧ locate 0x1FFF = .word 7 511 ∧ locate 0x000D = .metaOf 5
      ∧ locate 0x0010 = .reserved ∧ locate 0x0FFF = .reserved := by decide

/-- The busy variant of P5: the write is dropped and flagged. -/
theorem test_busy_write :
    turnStep { State.reset with busy := true } (writeAt 0x0004 99)
      = .next { State.reset with busy := true, sticky := ⟨false, false, false, false, true⟩ } := rfl

/-- Vectors 2.1.12 and 2.1.13. -/
theorem test_fromHex :
    (fromHex ['1', 'F', 'F', 'F', 'F', 'F', 'F', 'F', 'E']).toOption = some [0xFFFFFFFE, 0x00000001]
      ∧ (fromHex ['0', '0', '0', '0', '0', '0', '0', '1', '0']).toOption = some [0x10, 0]
      ∧ (fromHex ['1', '2', 'G', '4']).toOption = none ∧ (fromHex []).toOption = none := by decide +kernel

/-- R102: the pseudo-commands' words as P2 and 95_test_vectors.md 2.1.7 write them. -/
theorem test_pseudo_commands : encode (iszero 7) = 0x11007000 ∧ encode (clr 4) = 0x80800000 ∧ encode (setone 4) = 0x80801000
    ∧ encode (sqr 4 2) = 0x42802400 := by decide

/-! ### Witnesses: concrete states and operands that meet each statement's hypotheses, every clause at a boundary where it has one -/

/-- A busy state with a command word in flight. -/
def inFlight (w : Word) : State := { State.reset with cmd := w, busy := true }

theorem witness_EncodeOfDecodeIsTheWord : decode 0xFFFFFFFF ≠ .ok (.add 4 2 3) ∧ decode 0x40802600 = .ok (.add 4 2 3) := by decide

theorem witness_BlockTurnRunsTheDecodedCommand :
    BlockCompletesNext (inFlight 0x40802600) ∧ decode (inFlight 0x40802600).cmd = .ok (.add 4 2 3) := by decide

theorem witness_BlockTurnRunsTheDecodedCommand_host :
    NextTurnIs { State.reset with turns := [.host (.memWrite 0 0x40802600)] } (.host (.memWrite 0 0x40802600)) := by decide

theorem witness_BlockTurnRunsTheDecodedCommand_idle :
    BlockIdlesNext State.reset ∧ BlockIdlesNext { State.reset with turns := [.block] }
      ∧ NextTurnIs { State.reset with turns := [.host (.setRst false)] } (.host (.setRst false)) := by decide

theorem witness_BlockTurnRunsTheDecodedCommand_scheduled :
    BlockCompletesNext { inFlight 0x40802600 with turns := [.block] } := by decide

theorem witness_UnlistedOpcodesAreIllegal :
    BlockCompletesNext (inFlight 0x12000000)
      ∧ (inFlight 0x12000000).cmd.toNat / 2 ^ 24 ∉ [0x10, 0x11, 0x20, 0x21, 0x22, 0x23, 0x24, 0x25, 0x30, 0x31, 0x32, 0x33, 0x40,
        0x41, 0x42, 0x43, 0x50, 0x60, 0x70, 0x80, 0x81]
      ∧ BlockCompletesNext (inFlight 0) ∧ (inFlight 0).cmd = 0 := by decide

theorem witness_MovCopiesTheValue : (Instr.mov 2 1).wf = true ∧ (Instr.mov 7 7).wf = true := by decide

theorem witness_LduLoadsTheSignedValue : (Instr.ldu64 2 true).wf = true := by decide

theorem witness_FlipbTogglesOneBit :
    (Instr.flipb 2 0).wf = true ∧ (withArg State.reset 16383).arg0.toNat < 32 * Config.cap := by decide +kernel

theorem witness_ShwShiftsWholeWords :
    (Instr.shw 3 2).wf = true
      ∧ (0 ≤ (withArg (withAB 1 0) 511).arg0.toInt ∧ (withArg (withAB 1 0) 511).arg0.toInt < Config.cap
        ∧ magOf (withArg (withAB 1 0) 511) 2 * 2 ^ (32 * (withArg (withAB 1 0) 511).arg0.toInt.toNat) < Config.maxMag)
      ∧ (withArg (withAB 1 0) (-1)).arg0.toInt < 0 := by decide +kernel

theorem witness_ShbShiftsBits :
    (Instr.shb 3 2).wf = true
      ∧ (0 ≤ (withArg (withAB 1 0) 16383).arg0.toInt ∧ (withArg (withAB 1 0) 16383).arg0.toInt < (32 * Config.cap : Nat)
        ∧ magOf (withArg (withAB 1 0) 16383) 2 * 2 ^ (withArg (withAB 1 0) 16383).arg0.toInt.toNat < Config.maxMag)
      ∧ (withArg (withAB 1 0) (-2147483648)).arg0.toInt < 0
      ∧ magOf (withAB 1 0) 2 ≠ 0 ∧ shiftedTop (pack 0x80000001) 1 = 1 ∧ shiftedTop (pack 0x80000001) 64 = 2 := by decide +kernel

theorem witness_LogicActsOnMagnitudes : 2 ≤ (2 : Reg).val ∧ 2 ≤ (7 : Reg).val := by decide

/-- The examples of R232, by the loop of the first clause; an overflowing first squaring, by its second. -/
theorem witness_ModpowStaysBelowTheModulus_loop :
    powLoop 5 1 ⟨1, -2, 1⟩ = .ok ⟨-2, 4, 0⟩ ∧ powLoop 5 3 ⟨1, -2, 3⟩ = .ok ⟨3, 1, 0⟩
      ∧ powLoop 5 1 ⟨1, (2 ^ 8192 : Nat), 1⟩ = .error .capacityExceeded := by decide +kernel

/-- The largest magnitude and one, the largest but one and one, half the capacity and one less: the boundary operands. -/
def fullAndOne : State := withAB (Config.maxMag - 1 : Nat) 1

/-- A sum of exactly the largest magnitude. -/
def almostFull : State := withAB (Config.maxMag - 2 : Nat) 1

/-- Two factors whose product needs one word more than `CAP`. -/
def halves : State := withAB (2 ^ 8192 : Nat) (2 ^ 8192 : Nat)

/-- The largest two equal factors whose product fits. -/
def belowHalves : State := withAB (2 ^ 8192 - 1 : Nat) (2 ^ 8192 - 1 : Nat)

theorem magOf_almostFull : magOf almostFull 2 = Config.maxMag - 2 ∧ magOf almostFull 3 = 1 :=
  magOf_withAB (a := ((Config.maxMag - 2 : Nat) : Int)) (b := 1) (by decide +kernel) (by decide +kernel)
theorem magOf_belowHalves : magOf belowHalves 2 = 2 ^ 8192 - 1 ∧ magOf belowHalves 3 = 2 ^ 8192 - 1 :=
  magOf_withAB (a := ((2 ^ 8192 - 1 : Nat) : Int)) (b := ((2 ^ 8192 - 1 : Nat) : Int)) (by decide +kernel) (by decide +kernel)
theorem magOf_fullAndOne : magOf fullAndOne 2 = Config.maxMag - 1 ∧ magOf fullAndOne 3 = 1 :=
  magOf_withAB (a := ((Config.maxMag - 1 : Nat) : Int)) (b := 1) (by decide +kernel) (by decide +kernel)
theorem magOf_halves : magOf halves 2 = 2 ^ 8192 ∧ magOf halves 3 = 2 ^ 8192 :=
  magOf_withAB (a := ((2 ^ 8192 : Nat) : Int)) (b := ((2 ^ 8192 : Nat) : Int)) (by decide +kernel) (by decide +kernel)

theorem witness_UnsignedSumAndProduct :
    magOf almostFull 2 + magOf almostFull 3 < Config.maxMag ∧ magOf belowHalves 2 * magOf belowHalves 3 < Config.maxMag := by
  rw [magOf_almostFull.1, magOf_almostFull.2, magOf_belowHalves.1, magOf_belowHalves.2]
  decide +kernel

theorem witness_SubmWritesTheSignedDifference : (Instr.subm 4 2 3).wf = true := by decide

theorem witness_DivmFloorQuotientAndRemainder : (Instr.divm 4 5 2 3).wf = true ∧ magOf (withAB 100 7) 3 ≠ 0 := by decide +kernel

theorem witness_SignedSumDifferenceProduct :
    (valOf (withAB (-7) 2) 2 + valOf (withAB (-7) 2) 3).natAbs < Config.maxMag
      ∧ (valOf (withAB (-7) 2) 2 - valOf (withAB (-7) 2) 3).natAbs < Config.maxMag
      ∧ (valOf (withAB (-7) 2) 2 * valOf (withAB (-7) 2) 3).natAbs < Config.maxMag := by decide +kernel

theorem witness_DivTruncatesTowardZero :
    (Instr.div 4 5 2 3).wf = true ∧ magOf (withAB (-7) 2) 3 ≠ 0 ∧ magOf (withAB (-3) 5) 2 < magOf (withAB (-3) 5) 3
      ∧ magOf (withAB (-5) 5) 3 ≤ magOf (withAB (-5) 5) 2 := by decide +kernel

theorem witness_ModTakesTheThreeBranches : (Instr.mod 4 2 3).wf = true ∧ magOf (withAB (-7) 5) 3 ≠ 0 := by decide +kernel

theorem witness_GcdWritesBezoutTriple :
    (Instr.gcd 4 5 6 2 3).wf = true ∧ magOf (withAB 5 0) 3 = 0 := by decide +kernel

theorem witness_GcdTripleFollowsEuclid :
    (46 : Int) ≠ 0 ∧ (240 : Int).natAbs < Config.maxMag ∧ (46 : Int).natAbs < Config.maxMag := by decide +kernel

/-- The source's textbook vector: 4^13 mod 497. -/
def powState : State := writeReg (withAB 4 13) 4 497

theorem witness_ModpowIsModularPower :
    (Instr.modpow 5 2 3 4).wf = true ∧ 0 ≤ valOf powState 2 ∧ 0 < valOf powState 4 ∧ 0 < magOf powState 3
      ∧ valOf powState 2 * valOf powState 2 < Config.maxMag ∧ valOf powState 4 * valOf powState 4 ≤ Config.maxMag := by decide +kernel

theorem witness_ModpowOfZeroExponentIsOne :
    (Instr.modpow 5 2 3 4).wf = true ∧ magOf (writeReg (withAB 7 0) 4 1) 3 = 0 ∧ magOf (writeReg (withAB 7 0) 4 1) 4 ≠ 0 := by
  decide +kernel

/-- Vector 2.8.13: a negative base. -/
def negativeBase : State := writeReg (withAB (-2) 1) 4 5

theorem witness_ModpowStaysBelowTheModulus :
    (Instr.modpow 5 2 3 4).wf = true ∧ magOf negativeBase 3 ≠ 0 ∧ magOf negativeBase 4 ≠ 0
      ∧ magOf negativeBase 2 * magOf negativeBase 2 < Config.maxMag
      ∧ magOf negativeBase 4 * magOf negativeBase 4 ≤ Config.maxMag := by decide +kernel

theorem witness_OverflowRaisesCapacityExceeded_shifts :
    (0 ≤ (withArg (withAB 4294967296 0) 511).arg0.toInt ∧ (withArg (withAB 4294967296 0) 511).arg0.toInt < Config.cap
        ∧ Config.maxMag ≤ magOf (withArg (withAB 4294967296 0) 511) 2 * 2 ^ (32 * (withArg (withAB 4294967296 0) 511).arg0.toInt.toNat))
      ∧ (0 ≤ (withArg (withAB 2 0) 16383).arg0.toInt ∧ (withArg (withAB 2 0) 16383).arg0.toInt < (32 * Config.cap : Nat)
        ∧ Config.maxMag ≤ magOf (withArg (withAB 2 0) 16383) 2 * 2 ^ (withArg (withAB 2 0) 16383).arg0.toInt.toNat) := by decide +kernel

theorem witness_OverflowRaisesCapacityExceeded_unsigned :
    Config.maxMag ≤ magOf fullAndOne 2 + magOf fullAndOne 3 ∧ Config.maxMag ≤ magOf halves 2 * magOf halves 3 := by
  rw [magOf_fullAndOne.1, magOf_fullAndOne.2, magOf_halves.1, magOf_halves.2]
  decide +kernel

/-- Vector 2.8.17's operands: the exponent's only set bit makes this the last squaring. -/
theorem witness_OverflowRaisesCapacityExceeded_modpow :
    magOf halves 3 ≠ 0 ∧ magOf halves 2 ≠ 0 ∧ Config.maxMag ≤ magOf halves 2 * magOf halves 2
      ∧ magOf State.reset 1 ≠ 0 := by
  rw [magOf_halves.1, magOf_halves.2]
  decide +kernel

theorem witness_OverflowRaisesCapacityExceeded_signed :
    Config.maxMag ≤ (valOf fullAndOne 2 + valOf fullAndOne 3).natAbs
      ∧ Config.maxMag ≤ (valOf (withAB (Config.maxMag - 1 : Nat) (-1)) 2 - valOf (withAB (Config.maxMag - 1 : Nat) (-1)) 3).natAbs
      ∧ Config.maxMag ≤ (valOf halves 2 * valOf halves 3).natAbs := by
  have h1 := valOf_withAB (a := ((Config.maxMag - 1 : Nat) : Int)) (b := 1) (by decide +kernel) (by decide +kernel)
  have h2 := valOf_withAB (a := ((Config.maxMag - 1 : Nat) : Int)) (b := -1) (by decide +kernel) (by decide +kernel)
  have h3 := valOf_withAB (a := ((2 ^ 8192 : Nat) : Int)) (b := ((2 ^ 8192 : Nat) : Int)) (by decide +kernel) (by decide +kernel)
  rw [fullAndOne, halves, h1.1, h1.2, h2.1, h2.2, h3.1, h3.2]
  decide +kernel

theorem witness_CommandsThatNeverOverflow : Instr.mov 2 3 ∈ [Instr.cmpm 3 3, .eqmu 3 3, .flipb 2 3, .bor 2 3 3, .mov 2 3] := by decide

theorem witness_DivideByZeroExactly :
    (Instr.mod 4 2 3).wf = true ∧ divisorOf (.mod 4 2 3) = some 3 ∧ magOf State.reset 3 = 0 := by decide +kernel

theorem witness_BitIndexOutOfRangeExactly :
    (Instr.shw 3 2).wf = true ∧ amountOutOfRange (withArg State.reset 512) (.shw 3 2)
      ∧ ¬ amountOutOfRange (withArg State.reset 511) (.shw 3 2) := by
  refine ⟨by decide, ?_, ?_⟩ <;> unfold amountOutOfRange <;> decide +kernel

theorem witness_ErrorsChangeOnlyStatus : ∃ t, exec (.add 0 2 3) State.reset = .next t ∧ t.err = some .illegalCommand := ⟨_, rfl, rfl⟩

/-- The all-zero word. -/
theorem witness_ErrorsChangeOnlyStatus_step :
    ∃ t, complete (inFlight 0) = .next t ∧ t.err = some .illegalCommand := ⟨_, rfl, rfl⟩

theorem witness_OnlyDestinationsAreWritten :
    (∃ t, exec (.mov 2 1) State.reset = .next t) ∧ (3 : Reg) ∉ (Instr.mov 2 1).dests := ⟨exec_next _ _, by decide⟩

theorem witness_CommandsWriteCanonicalValues :
    ∃ t, exec (.mov 2 1) State.reset = .next t ∧ t.err = none ∧ (2 : Reg) ∈ (Instr.mov 2 1).dests := ⟨_, rfl, rfl, by decide⟩

/-- Two states that differ in a stale word above `top` and in `top` itself. -/
theorem witness_CommandsReadSignAndMagnitudeOnly :
    Alike (State.reset.setReg 2 (loaded false [5, 0])) (State.reset.setReg 2 ((loaded false [5]).setWord 9 1))
      ∧ State.reset.setReg 2 (loaded false [5, 0]) ≠ State.reset.setReg 2 ((loaded false [5]).setWord 9 1) := by
  refine ⟨⟨rfl, rfl, ?_⟩, ?_⟩ <;> decide +kernel

/-- A completed CMPM changes `FLAGS`. -/
theorem witness_FlagsChangeOnlyByComparison :
    (match step (inFlight 0x10002600) with
      | .next t => decide (t.flags ≠ (inFlight 0x10002600).flags)
      | _ => false) = true := by decide +kernel

theorem witness_EveryStepKeepsTheStatusInvariant : StatusInv (inFlight 0x40802600) ∧ ∃ t, step (inFlight 0x40802600) = .next t := by
  refine ⟨⟨by decide, by decide, fun h => absurd h (by decide)⟩, ?_⟩
  have h : step (inFlight 0x40802600) = complete (inFlight 0x40802600) := rfl
  rw [h]
  exact complete_next _

theorem witness_ResetPinAbandonsTheCommand :
    ({ inFlight 0x40802600 with turns := [.host (.setRst true)] } : State).turns.head? = some (.host (.setRst true))
      ∧ ({ State.reset with rst := true, turns := [.host (.setRst false)] } : State).rst = true := by decide

/-- The next turn of a reset state with this turn scheduled. -/
theorem nextTurnIs_scheduled (s : State) (u : Turn) (h : s.rst = false) : NextTurnIs { s with turns := u :: s.turns } u := ⟨h, rfl⟩

theorem witness_CmdWriteStartsACommand :
    State.reset.busy = false ∧ (inFlight 0x40802600).busy = true ∧ (0x1FFF : Addr) ≠ 0
      ∧ ∃ t, exec (.mov 2 1) (inFlight 0x80401000) = .next t := ⟨rfl, rfl, by decide, exec_next _ _⟩

theorem witness_WindowReadValues :
    NextTurnIs { State.reset with turns := [.host (.memRead 0x1FFF)] } (.host (.memRead 0x1FFF))
      ∧ (0x1FFF : Addr).toNat = 0x1000 + (7 : Reg).val * 0x200 + 511 ∧ 511 < Config.cap
      ∧ (0x000F : Addr).toNat = 0x8 + (7 : Reg).val ∧ (0x0FFF : Addr).toNat < 0x1000 := by decide

/-- Both ends of every range of addresses a clause of the window's statements names: reads while idle. -/
theorem witness_WindowReadValues_boundaries :
    ∀ a ∈ [0, 1, 2, 3, 4, 5, 6, 7, 8, 0xF, 0x10, 0xFFF, 0x1000, 0x11FF, 0x1200, 0x1E00, 0x1FFF],
      NextTurnIs { State.reset with turns := [readAt a] } (.host (.memRead (BitVec.ofNat 13 a))) ∧ (BitVec.ofNat 13 a).toNat = a := by
  decide

/-- The same for writes ignored while idle. -/
theorem witness_ReadOnlyLocationsIgnoreWrites_boundaries :
    ∀ a ∈ [3, 7, 8, 9, 0x10, 0xFFF, 0x1000, 0x13FF],
      NextTurnIs { State.reset with turns := [writeAt a 5] } (.host (.memWrite (BitVec.ofNat 13 a) 5)) ∧ (BitVec.ofNat 13 a).toNat = a := by
  decide

/-- The same for writes dropped while busy. -/
theorem witness_BusyWritesAreDroppedAndFlagged_boundaries :
    ∀ a ∈ [0, 4, 5, 0xA, 0xF, 0x1400, 0x1FFF],
      NextTurnIs { inFlight 0x40802600 with turns := [writeAt a 5] } (.host (.memWrite (BitVec.ofNat 13 a) 5))
        ∧ (inFlight 0x40802600).busy = true ∧ (BitVec.ofNat 13 a).toNat = a := by
  decide

theorem witness_WordWriteSetsOneWord :
    NextTurnIs { State.reset with turns := [.host (.memWrite 0x1400 5)] } (.host (.memWrite 0x1400 5)) ∧ State.reset.busy = false
      ∧ 2 ≤ (2 : Reg).val ∧ 0 < Config.cap ∧ (0x1400 : Addr).toNat = 0x1000 + (2 : Reg).val * 0x200 + 0
      ∧ (0x1FFF : Addr).toNat = 0x1000 + (7 : Reg).val * 0x200 + 511 := by decide

theorem witness_MetaWriteSetsTopAndSign :
    NextTurnIs { State.reset with turns := [.host (.memWrite 0xA 5)] } (.host (.memWrite 0xA 5)) ∧ State.reset.busy = false
      ∧ 2 ≤ (2 : Reg).val ∧ (0xA : Addr).toNat = 0x8 + (2 : Reg).val ∧ (0xF : Addr).toNat = 0x8 + (7 : Reg).val := by decide

theorem witness_ControlRegisterWrites :
    NextTurnIs { State.reset with turns := [.host (.memWrite 1 2)] } (.host (.memWrite 1 2))
      ∧ NextTurnIs { State.reset with turns := [.host (.memWrite 2 2)] } (.host (.memWrite 2 2))
      ∧ NextTurnIs { State.reset with turns := [.host (.memWrite 4 2)] } (.host (.memWrite 4 2))
      ∧ NextTurnIs { State.reset with turns := [.host (.memWrite 5 2)] } (.host (.memWrite 5 2))
      ∧ NextTurnIs { State.reset with turns := [.host (.memWrite 6 2)] } (.host (.memWrite 6 2))
      ∧ State.reset.busy = false := by decide

theorem witness_ReadOnlyLocationsIgnoreWrites :
    NextTurnIs { State.reset with turns := [.host (.memWrite 0x13FF 5)] } (.host (.memWrite 0x13FF 5))
      ∧ (State.reset.busy = false ∧ 0x1000 ≤ (0x13FF : Addr).toNat ∧ (0x13FF : Addr).toNat < 0x1400)
      ∧ (0x10 ≤ (0x0010 : Addr).toNat ∧ (0x0FFF : Addr).toNat < 0x1000) := by decide

/-- The read-only locations, at both ends of each range. -/
theorem witness_BusyWritesAreDroppedAndFlagged_readOnly :
    ∀ a ∈ [8, 9, 0x1000, 0x13FF],
      NextTurnIs { inFlight 0x40802600 with turns := [writeAt a 5] } (.host (.memWrite (BitVec.ofNat 13 a) 5))
        ∧ (BitVec.ofNat 13 a).toNat = a := by decide

theorem witness_BusyWritesAreDroppedAndFlagged :
    NextTurnIs { inFlight 0x40802600 with turns := [.host (.memWrite 0x1400 5)] } (.host (.memWrite 0x1400 5))
      ∧ (inFlight 0x40802600).busy = true ∧ 0x1400 ≤ (0x1400 : Addr).toNat
      ∧ (0xA ≤ (0xA : Addr).toNat ∧ (0xF : Addr).toNat < 0x10) := by decide

/-- A set bit that the host clears. -/
theorem witness_StickyBitsStaySet :
    ∃ t, step { State.reset with sticky := ⟨false, true, false, false, false⟩, turns := [.host (.memWrite 6 4)] } = .next t
      ∧ (stickyWord ⟨false, true, false, false, false⟩).getLsbD 2 = true ∧ (stickyWord t.sticky).getLsbD 2 = false :=
  ⟨_, rfl, by decide, by decide⟩

theorem witness_InterruptMirrorsDone :
    BlockCompletesNext (inFlight 0x12000000) ∧ State.reset.busy = false
      ∧ NextTurnIs { State.reset with turns := [.host (.memWrite 0 0)] } (.host (.memWrite 0 0))
      ∧ (2 : Word).getLsbD 1 = true ∧ NextTurnIs { State.reset with turns := [.host (.memWrite 1 2)] } (.host (.memWrite 1 2))
      ∧ (2 : Word).getLsbD 0 = false ∧ NextTurnIs { State.reset with turns := [.host (.memWrite 2 2)] } (.host (.memWrite 2 2))
      ∧ ({ State.reset with turns := [.host (.setRst true)] } : State).turns.head? = some (.host (.setRst true)) := by decide

theorem witness_LoadedWordsAreTheMagnitude :
    State.reset.rst = false ∧ State.reset.busy = false ∧ 2 ≤ (2 : Reg).val ∧ ([0xFFFFFFFE, 1] : List Word) ≠ []
      ∧ ([0xFFFFFFFE, 1] : List Word).length ≤ Config.cap ∧ (List.replicate 512 (1 : Word)).length ≤ Config.cap := by decide +kernel

theorem witness_ShiftBackRestoresTheValue :
    (0 : Int) ≤ 33 ∧ shiftBits (pack (-5)).sgn (pack (-5)).mag 33 = .ok (-42949672960) := by decide +kernel

/-- −1 with bit 0 flipped is plus zero, and flipped again +1: the value R158's law does not hold for. -/
theorem witness_FlipTwiceRestores :
    flipBit (pack (-1)).sgn (pack (-1)).mag 0 = .ok 0 ∧ flipBit (pack 0).sgn (pack 0).mag 0 = .ok 1
      ∧ flipBit (pack (-6)).sgn (pack (-6)).mag 1 = .ok (-4) ∧ (pack (-6)).val ≠ -(2 ^ 1) := by decide +kernel

/-- The example of R171, 2^64 − 1 with the higher words still to be trimmed, and 100 / 7 below it, the trace of R173. -/
theorem witness_BorrowSubtractionSubtractsMagnitudes :
    (pack 1).mag ≤ (pack (2 ^ 64)).mag
      ∧ rippleSub (wordPairs (pack (2 ^ 64)) (pack 1) (pack (2 ^ 64)).etop) 0 = ([0xFFFFFFFF, 0xFFFFFFFF, 0], 0) := by decide +kernel

theorem witness_RestoringDivisionIsFloorDivision : (7 : Nat) ≠ 0 ∧ restoringDivide 100 7 = (14, 2) := by decide +kernel

theorem witness_SignDispatchIsIntegerArithmetic : (pack 2).mag ≠ 0 := by decide +kernel

theorem witness_DivisionIdentityWithMod : (5 : Int) ≠ 0 ∧ modInt (-7) 5 = .ok 2 ∧ modInt (-3) 5 = .ok (-3) := by decide

end Sys2Proof.Tests
end

/-! Proofs of the family "state": the status invariant, what a command may write, and the register window's control registers.
First the rules these share: a command as one completion with a result, what a step can do to `FLAGS` and to `ERRSTICKY`, and the
effect of a host access by its location. -/

namespace Sys2Proof.Machine

/-! ### Turns and the schedule -/

@[simp] theorem reg_afterTurn (s : State) (k : Reg) : (afterTurn s).reg k = s.reg k := rfl

/-- The step of a host access while `rst` is low is the access (R6). -/
theorem step_of_nextTurnIs_host {s : State} {h : HostAccess} (hs : NextTurnIs s (.host h)) :
    step s = .next (hostAccess h (afterTurn s)) := by
  obtain ⟨hrst, hhead⟩ := hs
  obtain ⟨rest, hturns⟩ := List.head?_eq_some_iff.1 hhead
  simp [step, nextTurn, hturns, takeTurn, afterTurn, hrst]

/-- Everything a completion can do (R99): `IllegalCommand` for a word that is no command, or the command's meaning. -/
theorem complete_cases {s t : State} (h : complete s = .next t) :
    t = raise .illegalCommand s ∨ ∃ i, decode s.cmd = .ok i ∧ exec i s = .next t := by
  unfold complete at h
  split at h
  · exact .inl (Host.Outcome.next.inj h).symm
  · next i hi => exact .inr ⟨i, hi, h⟩

/-! ### Commands: one result, one completion -/

/-- The values a command writes to its destinations, in their order, or the error it completes with; a comparison writes none. -/
def commandResult (s : State) : Instr → Except CmdError (List Int)
  | .cmpm _ _ => .ok []
  | .eqmu _ _ => .ok []
  | .flipb _ a => (flipBit (sgnOf s a) (magOf s a) (bitIndex s)).map ([·])
  | .shw _ a => (shiftWords (sgnOf s a) (magOf s a) (shiftAmount s)).map ([·])
  | .shb _ a => (shiftBits (sgnOf s a) (magOf s a) (shiftAmount s)).map ([·])
  | .bor _ a b => .ok [((magOf s a ||| magOf s b : Nat) : Int)]
  | .band _ a b => .ok [((magOf s a &&& magOf s b : Nat) : Int)]
  | .bxor _ a b => .ok [((magOf s a ^^^ magOf s b : Nat) : Int)]
  | .addm _ a b => (addMag (magOf s a) (magOf s b)).map ([·])
  | .subm _ a b => .ok [subMag (magOf s a) (magOf s b)]
  | .mulm _ a b => (mulMag (magOf s a) (magOf s b)).map ([·])
  | .divm _ _ a b => (divMag (magOf s a) (magOf s b)).map fun p => [(p.1 : Int), (p.2 : Int)]
  | .add _ a b => (addInt (valOf s a) (valOf s b)).map ([·])
  | .sub _ a b => (subInt (valOf s a) (valOf s b)).map ([·])
  | .mul _ a b => (mulInt (valOf s a) (valOf s b)).map ([·])
  | .div _ _ a b => (divInt (valOf s a) (valOf s b)).map fun p => [p.1, p.2]
  | .mod _ a b => (modInt (valOf s a) (valOf s b)).map ([·])
  | .gcd _ _ _ a b => extendedGcd (valOf s a) (valOf s b)
  | .modpow _ base exp m => (modPow (valOf s base) (magOf s exp) (valOf s m)).map ([·])
  | .mov _ a => .ok [valOf s a]
  | .ldu64 _ neg => .ok [if neg then -(longValue s : Int) else longValue s]

/-- The flags a comparison completes with; no other command has any. -/
def commandFlags (s : State) : Instr → Flags
  | .cmpm a b => compareFlags (magOf s a) (magOf s b)
  | .eqmu a b => equalFlags (equalWords (s.reg a) (s.reg b))
  | _ => s.flags

/-- Only the comparator has no destination (R92, R97). -/
theorem dests_eq_nil_iff (i : Instr) : i.dests = [] ↔ ∃ a b, i = .cmpm a b ∨ i = .eqmu a b := by
  cases i <;> simp [Instr.dests]

theorem exec_of_dests_eq_nil {i : Instr} (h : i.dests = []) (s : State) : exec i s = commitFlags (commandFlags s i) s := by
  obtain ⟨a, b, rfl | rfl⟩ := (dests_eq_nil_iff i).1 h
  · exact exec_cmpm a b s
  · exact exec_eqmu a b s

theorem exec_of_dests_ne_nil {i : Instr} (h : i.dests ≠ []) (s : State) : exec i s = commit i.dests (commandResult s i) s := by
  cases i with
  | cmpm => exact absurd rfl h
  | eqmu => exact absurd rfl h
  | _ => rfl

/-- Everything a command can do (R98, R247): a comparison's flags, an error, or every destination written. -/
theorem exec_cases {i : Instr} {s t : State} (h : exec i s = .next t) :
    (i.dests = [] ∧ t = finish { s with flags := commandFlags s i }) ∨
    (i.dests ≠ [] ∧ ∃ e, t = raise e s) ∨
    (i.dests ≠ [] ∧ destsLegal i.dests = true ∧ ∃ vs, commandResult s i = .ok vs ∧ t = finish (writeRegs s (i.dests.zip vs))) := by
  by_cases hd : i.dests = []
  · rw [exec_of_dests_eq_nil hd] at h
    exact .inl ⟨hd, (Host.Outcome.next.inj h).symm⟩
  · rw [exec_of_dests_ne_nil hd] at h
    obtain ⟨_, h'⟩ | ⟨_, e, _, h'⟩ | ⟨hlegal, vs, hvs, h'⟩ := commit_cases i.dests (commandResult s i) s <;> rw [h'] at h <;>
      obtain rfl := Host.Outcome.next.inj h
    · exact .inr (.inl ⟨hd, _, rfl⟩)
    · exact .inr (.inl ⟨hd, _, rfl⟩)
    · exact .inr (.inr ⟨hd, hlegal, vs, hvs, rfl⟩)

/-- What every command keeps and how it leaves the status, whatever its outcome (R98, R247). -/
theorem exec_untouched {i : Instr} {s t : State} (h : exec i s = .next t) : t.busy = false ∧ t.done = true ∧ Untouched s t := by
  obtain ⟨_, rfl⟩ | ⟨_, e, rfl⟩ | ⟨_, _, vs, _, rfl⟩ := exec_cases h
  · exact ⟨rfl, rfl, rfl, rfl, rfl, rfl, rfl, rfl, rfl, rfl⟩
  · exact ⟨rfl, rfl, untouched_raise e s⟩
  · exact ⟨rfl, rfl, untouched_finish_writeRegs s _⟩

/-- A completion, of a command or of a word that is none, leaves the block idle and the reset pin as it was (R98). -/
theorem complete_status {s t : State} (h : complete s = .next t) : t.busy = false ∧ t.rst = s.rst := by
  obtain rfl | ⟨i, _, hi⟩ := complete_cases h
  · exact ⟨rfl, rfl⟩
  · obtain ⟨hbusy, _, _, _, _, _, hrst, _⟩ := exec_untouched hi
    exact ⟨hbusy, hrst⟩

/-! ### The status invariant (R37, R98, R280) -/

theorem clockReset_clockReset (s : State) : clockReset (clockReset s) = clockReset s := rfl

/-- While `rst` is low the invariant speaks of the three status fields only. -/
theorem statusInv_of_rst_low {s : State} (hrst : s.rst = false) (hexcl : ¬(s.busy = true ∧ s.done = true))
    (herr : s.busy = true → s.err = none) : StatusInv s :=
  ⟨hexcl, herr, fun h => absurd (hrst.symm.trans h) Bool.false_ne_true⟩

/-- Whatever keeps `STATUS` and the low pin keeps the invariant. -/
theorem StatusInv.of_status_eq {s t : State} (hs : StatusInv s) (hrst : t.rst = false) (hbusy : t.busy = s.busy)
    (hdone : t.done = s.done) (herr : t.err = s.err) : StatusInv t := by
  obtain ⟨hexcl, hnone, _⟩ := hs
  exact statusInv_of_rst_low hrst (by rwa [hbusy, hdone]) (by rwa [hbusy, herr])

theorem statusInv_clockReset (s : State) : StatusInv (clockReset s) :=
  ⟨fun h => Bool.false_ne_true h.1, fun _ => rfl, fun _ => clockReset_clockReset s⟩

/-- Every turn taken in reset leaves the reset values (R280). -/
theorem statusInv_turnInReset (u : Turn) (s : State) : StatusInv (turnInReset u s) := by
  have hany : StatusInv (readAny (clockReset s)) := ⟨fun h => Bool.false_ne_true h.1, fun _ => rfl, fun _ => rfl⟩
  have hpin (level : Bool) : StatusInv { clockReset s with rst := level } :=
    ⟨fun h => Bool.false_ne_true h.1, fun _ => rfl, fun _ => rfl⟩
  cases u with
  | block => exact statusInv_clockReset s
  | host h =>
    cases h with
    | memRead a => exact hany
    | memWrite a v => exact statusInv_clockReset s
    | setRst level => exact hpin level

theorem statusInv_hostRead {s : State} (hs : StatusInv s) (hrst : s.rst = false) (a : Addr) : StatusInv (hostRead a s) := by
  obtain ⟨v, _, h⟩ | ⟨_, h⟩ := hostRead_cases a s <;> rw [h] <;> exact hs.of_status_eq hrst rfl rfl rfl

/-- A host write changes `STATUS` only by starting a command or by clearing `DONE` of an idle block (R36, R37). -/
theorem statusInv_writeLocation {s : State} (hs : StatusInv s) (hrst : s.rst = false) (v : Word) (l : Location) :
    StatusInv (writeLocation s v l) := by
  obtain h | h | h | ⟨_, h⟩ | ⟨hidle, h⟩ | ⟨_, h⟩ | ⟨_, h | h⟩ | h | ⟨_, k, r, h⟩ := writeLocation_cases s v l <;> rw [h]
  · exact hs
  · exact hs.of_status_eq hrst rfl rfl rfl
  · exact hs.of_status_eq hrst rfl rfl rfl
  · exact statusInv_of_rst_low hrst (fun hb => Bool.false_ne_true hb.2) fun _ => rfl
  · have hcleared : ¬ false = true := Bool.false_ne_true
    exact statusInv_of_rst_low hrst (fun hb => hcleared hb.2) fun hb => absurd (hidle.symm.trans hb) hcleared
  · exact hs.of_status_eq hrst rfl rfl rfl
  · exact hs.of_status_eq hrst rfl rfl rfl
  · exact hs.of_status_eq hrst rfl rfl rfl
  · exact hs.of_status_eq hrst rfl rfl rfl
  · exact hs.of_status_eq (by simp [hrst]) (by simp) (by simp) (by simp)

theorem statusInv_hostAccess {s : State} (hs : StatusInv s) (hrst : s.rst = false) (h : HostAccess) : StatusInv (hostAccess h s) := by
  cases h with
  | memRead a => exact statusInv_hostRead hs hrst a
  | memWrite a v => exact statusInv_writeLocation hs hrst v (locate a)
  | setRst level =>
    cases level with
    | true => exact statusInv_clockReset _
    | false => exact hs

theorem statusInv_complete {s t : State} (hrst : s.rst = false) (h : complete s = .next t) : StatusInv t := by
  obtain ⟨hbusy, hpin⟩ := complete_status h
  have hidle : ¬ t.busy = true := by simp [hbusy]
  exact statusInv_of_rst_low (hpin.trans hrst) (fun hb => hidle hb.1) fun hb => absurd hb hidle

/-- Taking a turn off the schedule is nothing to the block. -/
theorem statusInv_afterTurn {s : State} (hs : StatusInv s) : StatusInv (afterTurn s) := by
  obtain ⟨hexcl, herr, hreset⟩ := hs
  exact ⟨hexcl, herr, fun h => congrArg afterTurn (hreset h)⟩

/-- Settles O38: each of the four things a turn can do keeps the invariant. -/
theorem everyStepKeepsTheStatusInvariant : Obligations.EveryStepKeepsTheStatusInvariant := by
  intro s t hs hstep
  obtain ⟨u, hturn, _⟩ := step_cases hstep
  have hs' := statusInv_afterTurn hs
  obtain ⟨_, rfl⟩ | ⟨hrst, a, _, rfl⟩ | ⟨hrst, _, _, hc⟩ | ⟨_, _, _, rfl⟩ := takeTurn_cases hturn
  · exact statusInv_turnInReset u _
  · exact statusInv_hostAccess hs' hrst a
  · exact statusInv_complete hrst hc
  · exact hs'

/-- Settles O39: the block is idle and the pin low. -/
theorem resetMeetsTheStatusInvariant : Obligations.ResetMeetsTheStatusInvariant :=
  statusInv_of_rst_low rfl (fun h => Bool.false_ne_true h.1) fun _ => rfl

end Sys2Proof.Machine

/-! What commands write: only destinations (O34), canonical values (O35), and these a function of sign and magnitude (O36). -/

namespace Sys2Proof.Machine

/-- Settles O34: an error writes no register, a comparison none either, and a result only the destinations. -/
theorem onlyDestinationsAreWritten : Obligations.OnlyDestinationsAreWritten := by
  intro i s t k h hk
  obtain ⟨_, rfl⟩ | ⟨_, e, rfl⟩ | ⟨_, _, vs, _, rfl⟩ := exec_cases h
  · rfl
  · exact reg_raise e s k
  · rw [reg_finish]
    refine reg_writeRegs_notMem s _ k fun hmem => hk ?_
    obtain ⟨p, hp, rfl⟩ := List.mem_map.1 hmem
    exact (List.of_mem_zip hp).1

/-! ### Every result fits its register -/

/-- A result of a command with `n` destinations: one value for each, every magnitude below `MAXMAG`. -/
def Fits (n : Nat) (vs : List Int) : Prop := vs.length = n ∧ ∀ v ∈ vs, v.natAbs < Config.maxMag

theorem fits_one {v : Int} (h : v.natAbs < Config.maxMag) : Fits 1 [v] := ⟨rfl, by simpa using h⟩

theorem fits_two {v w : Int} (hv : v.natAbs < Config.maxMag) (hw : w.natAbs < Config.maxMag) : Fits 2 [v, w] :=
  ⟨rfl, by simp [hv, hw]⟩

theorem fits_three {u v w : Int} (hu : u.natAbs < Config.maxMag) (hv : v.natAbs < Config.maxMag) (hw : w.natAbs < Config.maxMag) :
    Fits 3 [u, v, w] :=
  ⟨rfl, by simp [hu, hv, hw]⟩

theorem exceptMap_eq_ok {ε α β : Type} {f : α → β} {r : Except ε α} {b : β} (h : r.map f = .ok b) : ∃ a, r = .ok a ∧ b = f a := by
  cases r with
  | error e => cases h
  | ok a => exact ⟨a, rfl, (Except.ok.inj h).symm⟩

/-- A command with one destination fits when its one value does. -/
theorem fits_map_singleton {r : Except CmdError Int} {vs : List Int} (h : r.map ([·]) = .ok vs)
    (hr : ∀ v, r = .ok v → v.natAbs < Config.maxMag) : Fits 1 vs := by
  obtain ⟨v, hv, rfl⟩ := exceptMap_eq_ok h
  exact fits_one (hr v hv)

theorem magOf_lt (s : State) (k : Reg) : magOf s k < Config.maxMag := mag_lt_maxMag _

theorem natAbs_valOf_lt (s : State) (k : Reg) : (valOf s k).natAbs < Config.maxMag := val_natAbs_lt _

theorem natAbs_sgnOf_mul (s : State) (k : Reg) (m : Nat) : (sgnOf s k * (m : Int)).natAbs = m := natAbs_sgn_mul _ m

theorem one_lt_maxMag : 1 < Config.maxMag := Nat.one_lt_two_pow (by decide)

theorem two_pow_64_le_maxMag : 2 ^ 64 ≤ Config.maxMag := Nat.pow_le_pow_right (by decide) (by decide)

/-- A checked result fits (R11). -/
theorem fits_checkCap {v : Int} {vs : List Int} (h : (checkCap v).map ([·]) = .ok vs) : Fits 1 vs :=
  fits_map_singleton h fun _ hw => (checkCap_ok hw).1 ▸ (checkCap_ok hw).2

/-- Toggling a bit inside the capacity stays inside it (R151). -/
theorem natAbs_flipBit_lt {s : State} {k : Reg} {n : Nat} {v : Int} (h : flipBit (sgnOf s k) (magOf s k) n = .ok v) :
    v.natAbs < Config.maxMag := by
  unfold flipBit at h
  split at h
  · cases h
  · next hn =>
    obtain rfl := Except.ok.inj h
    rw [natAbs_sgnOf_mul]
    exact Nat.xor_lt_two_pow (magOf_lt s k) (Nat.pow_lt_pow_right (by decide) (by omega))

/-- A shift up is checked, and a shift down only discards bits (R152, R153). -/
theorem natAbs_shiftBy_lt {s : State} {k : Reg} {unit : Nat} {n v : Int} (h : shiftBy unit (sgnOf s k) (magOf s k) n = .ok v) :
    v.natAbs < Config.maxMag := by
  unfold shiftBy at h
  split at h
  · cases h
  · split at h
    · obtain ⟨rfl, hlt⟩ := checkCap_ok h
      exact hlt
    · obtain rfl := Except.ok.inj h
      rw [natAbs_sgnOf_mul]
      exact lt_of_le_of_lt (Nat.shiftRight_le _ _) (magOf_lt s k)

theorem natAbs_subMag_lt {a b : Nat} (ha : a < Config.maxMag) (hb : b < Config.maxMag) : (subMag a b).natAbs < Config.maxMag := by
  unfold subMag
  generalize Config.maxMag = n at *
  omega

/-- The quotient and the remainder are at most the dividend (R173). -/
theorem fits_divMag {a b : Nat} {vs : List Int} (ha : a < Config.maxMag)
    (h : (divMag a b).map (fun p => [(p.1 : Int), (p.2 : Int)]) = .ok vs) : Fits 2 vs := by
  obtain ⟨p, hp, rfl⟩ := exceptMap_eq_ok h
  unfold divMag at hp
  split at hp
  · cases hp
  · obtain rfl := Except.ok.inj hp
    exact fits_two (lt_of_le_of_lt (Nat.div_le_self a b) ha) (lt_of_le_of_lt (Nat.mod_le a b) ha)

/-- The same for the truncating division (R194). -/
theorem fits_divInt {x y : Int} {vs : List Int} (hx : x.natAbs < Config.maxMag)
    (h : (divInt x y).map (fun p => [p.1, p.2]) = .ok vs) : Fits 2 vs := by
  obtain ⟨p, hp, rfl⟩ := exceptMap_eq_ok h
  by_cases hy : y = 0
  · subst hy
    cases hp
  · rw [divInt_of_ne hy] at hp
    obtain rfl := Except.ok.inj hp
    refine fits_two ?_ ?_
    · rw [Int.natAbs_tdiv]
      exact lt_of_le_of_lt (Nat.div_le_self _ _) hx
    · rw [Int.natAbs_tmod]
      exact lt_of_le_of_lt (Nat.mod_le _ _) hx

/-- MOD's result is below the modulus (R210). -/
theorem natAbs_modInt_lt {x y v : Int} (h : modInt x y = .ok v) : v.natAbs < y.natAbs := by
  by_cases hy : y = 0
  · subst hy
    cases h
  · rw [modInt_of_ne hy] at h
    obtain rfl := Except.ok.inj h
    exact natAbs_reduced_lt hy

/-- The working values that GCD ends with fit. -/
def GcdPairs.Fit (p : GcdPairs) : Prop :=
  (p.oldR.natAbs < Config.maxMag ∧ p.r.natAbs < Config.maxMag) ∧ (p.oldS.natAbs < Config.maxMag ∧ p.s.natAbs < Config.maxMag) ∧
    (p.oldT.natAbs < Config.maxMag ∧ p.t.natAbs < Config.maxMag)

/-- Each pass keeps the current values as the old ones and checks the new ones (R220). -/
theorem fit_gcdStep {p p' : GcdPairs} (hp : p.Fit) (h : gcdStep p = .ok p') : p'.Fit := by
  obtain ⟨⟨_, hr⟩, ⟨_, hs⟩, ⟨_, ht⟩⟩ := hp
  unfold gcdStep at h
  split at h
  · cases h
  split at h
  · cases h
  next newR hR =>
  split at h
  · cases h
  next newS hS =>
  split at h
  · cases h
  next newT hT =>
  obtain rfl := Except.ok.inj h
  exact ⟨⟨hr, (nextOf_ok hR).2⟩, ⟨hs, (nextOf_ok hS).2⟩, ⟨ht, (nextOf_ok hT).2⟩⟩

theorem fit_gcdLoop {n : Nat} {p p' : GcdPairs} (hp : p.Fit) (h : gcdLoop n p = .ok p') : p'.Fit := by
  induction n generalizing p with
  | zero =>
    obtain rfl := Except.ok.inj h
    exact hp
  | succ n ih =>
    unfold gcdLoop at h
    split at h
    · obtain rfl := Except.ok.inj h
      exact hp
    · split at h
      · cases h
      · next q hq => exact ih (fit_gcdStep hp hq) h

theorem fits_extendedGcd {a b : Int} {vs : List Int} (ha : a.natAbs < Config.maxMag) (hb : b.natAbs < Config.maxMag)
    (h : extendedGcd a b = .ok vs) : Fits 3 vs := by
  obtain ⟨p, hp, rfl⟩ := exceptMap_eq_ok h
  have h1 : (1 : Int).natAbs < Config.maxMag := one_lt_maxMag
  have h0 : (0 : Int).natAbs < Config.maxMag := lt_trans Nat.zero_lt_one one_lt_maxMag
  obtain ⟨⟨hR, _⟩, ⟨hS, _⟩, ⟨hT, _⟩⟩ := fit_gcdLoop ⟨⟨ha, hb⟩, ⟨h1, h0⟩, ⟨h0, h1⟩⟩ hp
  exact fits_three hR hS hT

theorem natAbs_mulMod_lt {x y m v : Int} (hm : m.natAbs < Config.maxMag) (h : mulMod x y m = .ok v) : v.natAbs < Config.maxMag := by
  unfold mulMod at h
  split at h
  · cases h
  · exact lt_trans (natAbs_modInt_lt h) hm

theorem natAbs_answer_powStep_lt {m : Int} {p p' : PowWork} (hm : m.natAbs < Config.maxMag) (hp : p.answer.natAbs < Config.maxMag)
    (h : powStep m p = .ok p') : p'.answer.natAbs < Config.maxMag := by
  unfold powStep at h
  split at h
  · cases h
  next answer hanswer =>
  split at h
  · cases h
  obtain rfl := Except.ok.inj h
  split at hanswer
  · exact natAbs_mulMod_lt hm hanswer
  · obtain rfl := Except.ok.inj hanswer
    exact hp

theorem natAbs_answer_powLoop_lt {m : Int} {n : Nat} {p p' : PowWork} (hm : m.natAbs < Config.maxMag)
    (hp : p.answer.natAbs < Config.maxMag) (h : powLoop m n p = .ok p') : p'.answer.natAbs < Config.maxMag := by
  induction n generalizing p with
  | zero =>
    obtain rfl := Except.ok.inj h
    exact hp
  | succ n ih =>
    unfold powLoop at h
    split at h
    · obtain rfl := Except.ok.inj h
      exact hp
    · split at h
      · cases h
      · next q hq => exact ih (natAbs_answer_powStep_lt hm hp hq) h

/-- MODPOW's answer starts at one and is reduced by the modulus from then on (R230). -/
theorem natAbs_modPow_lt {base m v : Int} {e : Nat} (hm : m.natAbs < Config.maxMag) (h : modPow base e m = .ok v) :
    v.natAbs < Config.maxMag := by
  unfold modPow at h
  split at h
  · cases h
  · obtain ⟨p, hp, rfl⟩ := exceptMap_eq_ok h
    exact natAbs_answer_powLoop_lt (p := ⟨1, base, e⟩) hm one_lt_maxMag hp

/-- LDU64's value has 64 bits (R122). -/
theorem natAbs_longValue_lt (s : State) (neg : Bool) :
    (if neg then -(longValue s : Int) else longValue s).natAbs < Config.maxMag := by
  have hlong : longValue s < 2 ^ 64 := by
    have h0 := s.arg0.isLt
    have h1 := s.arg1.isLt
    unfold longValue
    omega
  have : (if neg then -(longValue s : Int) else longValue s).natAbs = longValue s := by cases neg <;> simp
  rw [this]
  exact lt_of_lt_of_le hlong two_pow_64_le_maxMag

/-- Every command that raises no error has a value for each of its destinations, and every one fits. -/
theorem fits_commandResult {s : State} {i : Instr} {vs : List Int} (h : commandResult s i = .ok vs) : Fits i.dests.length vs := by
  cases i with
  | cmpm a b | eqmu a b =>
    obtain rfl := Except.ok.inj h
    exact ⟨rfl, by simp⟩
  | flipb d a => exact fits_map_singleton h fun v hv => natAbs_flipBit_lt hv
  | shw d a | shb d a => exact fits_map_singleton h fun v hv => natAbs_shiftBy_lt hv
  | bor d a b =>
    obtain rfl := Except.ok.inj h
    exact fits_one (Nat.or_lt_two_pow (magOf_lt s a) (magOf_lt s b))
  | band d a b =>
    obtain rfl := Except.ok.inj h
    exact fits_one (Nat.and_lt_two_pow _ (magOf_lt s b))
  | bxor d a b =>
    obtain rfl := Except.ok.inj h
    exact fits_one (Nat.xor_lt_two_pow (magOf_lt s a) (magOf_lt s b))
  | addm d a b | mulm d a b | add d a b | sub d a b | mul d a b =>
    simp only [commandResult, addMag, mulMag, addInt, subInt, mulInt] at h
    exact fits_checkCap h
  | subm d a b =>
    obtain rfl := Except.ok.inj h
    exact fits_one (natAbs_subMag_lt (magOf_lt s a) (magOf_lt s b))
  | divm q r a b => exact fits_divMag (magOf_lt s a) h
  | div q r a b => exact fits_divInt (natAbs_valOf_lt s a) h
  | mod d a b => exact fits_map_singleton h fun v hv => lt_trans (natAbs_modInt_lt hv) (natAbs_valOf_lt s b)
  | gcd d x y a b => exact fits_extendedGcd (natAbs_valOf_lt s a) (natAbs_valOf_lt s b) h
  | modpow d base e m => exact fits_map_singleton h fun v hv => natAbs_modPow_lt (natAbs_valOf_lt s m) hv
  | mov d a =>
    obtain rfl := Except.ok.inj h
    exact fits_one (natAbs_valOf_lt s a)
  | ldu64 d neg =>
    obtain rfl := Except.ok.inj h
    exact fits_one (natAbs_longValue_lt s neg)

/-- The destinations of the result list are the command's. -/
theorem map_fst_zip_commandResult {s : State} {i : Instr} {vs : List Int} (h : commandResult s i = .ok vs) :
    (i.dests.zip vs).map (·.1) = i.dests :=
  List.map_fst_zip (fits_commandResult h).1.ge

/-- Settles O35: without an error every destination holds its value, in canonical form. -/
theorem commandsWriteCanonicalValues : Obligations.CommandsWriteCanonicalValues := by
  intro i s t k h hok hk
  obtain ⟨hnil, _⟩ | ⟨_, e, rfl⟩ | ⟨_, hlegal, vs, hvs, rfl⟩ := exec_cases h
  · simp [hnil] at hk
  · cases hok
  · obtain ⟨hgeneral, hnodup⟩ := (destsLegal_iff _).1 hlegal
    have hfst := map_fst_zip_commandResult hvs
    obtain ⟨p, hp, rfl⟩ := List.mem_map.1 (hfst.symm ▸ hk)
    rw [reg_finish]
    exact (holds_writeRegs s _ (hfst.symm ▸ hnodup) (fun q hq => hgeneral _ (List.of_mem_zip hq).1)
      (fun q hq => (fits_commandResult hvs).2 _ (List.of_mem_zip hq).2) p hp).1

/-! ### EQMU's word comparison is equality of the magnitudes (R141) -/

/-- As many words that write the same number are the same words (R20). -/
theorem wordsValue_injective {l l' : List Word} (hlen : l.length = l'.length) (h : wordsValue l = wordsValue l') : l = l' := by
  induction l generalizing l' with
  | nil => exact (List.length_eq_zero_iff.1 hlen.symm).symm
  | cons x xs ih =>
    cases l' with
    | nil => cases hlen
    | cons y ys =>
      have hx := x.isLt
      have hy := y.isLt
      simp only [wordsValue_cons] at h
      have hhead : x = y := BitVec.eq_of_toNat_eq (by omega)
      rw [hhead, ih (Nat.succ.inj hlen) (by omega)]

/-- Zero words at the top add nothing (R24). -/
theorem wordsValue_append_zeros (l : List Word) (n : Nat) : wordsValue (l ++ List.replicate n 0) = wordsValue l := by
  induction l with
  | nil =>
    induction n with
    | zero => rfl
    | succ n ih => simp_all [List.replicate_succ]
  | cons x xs ih => rw [List.cons_append, wordsValue_cons, ih, wordsValue_cons]

/-- The first `n` words of a register as R141 reads them. -/
def BigNum.liveWords (r : BigNum) (n : Nat) : List Word := (List.range n).map r.liveWord

theorem liveWords_eq_append (r : BigNum) {n : Nat} (h : r.top.toNat < n) :
    r.liveWords n = r.w.take (r.top.toNat + 1) ++ List.replicate (n - (r.top.toNat + 1)) 0 := by
  have hlen := length_take_words r
  refine List.ext_getElem (by simp [BigNum.liveWords, hlen]; omega) fun i hi _ => ?_
  have hcap : r.top.toNat + 1 ≤ r.w.length := by simpa using hlen
  by_cases hle : i ≤ r.top.toNat
  · rw [List.getElem_append_left (by omega)]
    simp [BigNum.liveWords, BigNum.liveWord, BigNum.word, hle, show i < r.w.length by omega]
  · rw [List.getElem_append_right (by omega)]
    simp [BigNum.liveWords, BigNum.liveWord, hle]

/-- Up to `top` or beyond it, the live words write the magnitude (R9, R24). -/
theorem wordsValue_liveWords (r : BigNum) {n : Nat} (h : r.top.toNat < n) : wordsValue (r.liveWords n) = r.mag := by
  rw [liveWords_eq_append r h, wordsValue_append_zeros, BigNum.mag]

theorem equalWords_iff (a b : BigNum) : equalWords a b = true ↔ a.mag = b.mag := by
  have hwords (n : Nat) : (∀ i < n, a.liveWord i = b.liveWord i) ↔ a.liveWords n = b.liveWords n := by
    simp [BigNum.liveWords]
  have hall : equalWords a b = true ↔ a.liveWords (max a.top.toNat b.top.toNat + 1) = b.liveWords (max a.top.toNat b.top.toNat + 1) := by
    simp [equalWords, ← hwords]
  rw [hall, ← wordsValue_liveWords a (n := max a.top.toNat b.top.toNat + 1) (by omega),
    ← wordsValue_liveWords b (n := max a.top.toNat b.top.toNat + 1) (by omega)]
  exact ⟨congrArg wordsValue, wordsValue_injective (by simp [BigNum.liveWords])⟩

theorem equalWords_eq_decide (a b : BigNum) : equalWords a b = decide (a.mag = b.mag) :=
  Bool.eq_iff_iff.2 ((equalWords_iff a b).trans decide_eq_true_iff.symm)

/-! ### States that commands cannot tell apart (R31) -/

section Alike
variable {s s' : State} (h : Alike s s')
include h

theorem Alike.sg_eq (k : Reg) : (s.reg k).sg = (s'.reg k).sg := by
  obtain ⟨_, _, hreg⟩ := h
  exact (hreg k).1

theorem Alike.magOf_eq (k : Reg) : magOf s k = magOf s' k := by
  obtain ⟨_, _, hreg⟩ := h
  exact (hreg k).2

theorem Alike.sgnOf_eq (k : Reg) : sgnOf s k = sgnOf s' k := by simp only [sgnOf, BigNum.sgn, h.sg_eq k]

theorem Alike.valOf_eq (k : Reg) : valOf s k = valOf s' k :=
  congrArg₂ (fun (sg : Int) (m : Nat) => sg * (m : Int)) (h.sgnOf_eq k) (h.magOf_eq k)

theorem Alike.equalWords_eq (a b : Reg) : equalWords (s.reg a) (s.reg b) = equalWords (s'.reg a) (s'.reg b) := by
  have hmag (k : Reg) : (s.reg k).mag = (s'.reg k).mag := h.magOf_eq k
  rw [equalWords_eq_decide, equalWords_eq_decide, hmag a, hmag b]

/-- The result of a command is a function of what alike states share. -/
theorem Alike.commandResult_eq (i : Instr) : commandResult s i = commandResult s' i := by
  obtain ⟨h0, h1, _⟩ := id h
  cases i <;> simp only [commandResult, bitIndex, shiftAmount, longValue, h0, h1, h.magOf_eq, h.sgnOf_eq, h.valOf_eq]

theorem Alike.commandFlags_eq {i : Instr} (hi : i.dests = []) : commandFlags s i = commandFlags s' i := by
  obtain ⟨a, b, rfl | rfl⟩ := (dests_eq_nil_iff i).1 hi
  · simp only [commandFlags, h.magOf_eq]
  · simp only [commandFlags, h.equalWords_eq]

end Alike

theorem commit_ok {ds : List Reg} (h : destsLegal ds = true) (vs : List Int) (s : State) :
    commit ds (.ok vs) s = .next (finish (writeRegs s (ds.zip vs))) := by simp [commit, h]

/-- What a list of writes leaves in a general register it names does not depend on the state. -/
theorem reg_writeRegs_congr (s s' : State) {l : List (Reg × Int)} {k : Reg} (hk : k ∈ l.map (·.1)) (h2 : 2 ≤ k.val) :
    (writeRegs s l).reg k = (writeRegs s' l).reg k := by
  induction l generalizing s s' with
  | nil => cases hk
  | cons p rest ih =>
    by_cases hrest : k ∈ rest.map (·.1)
    · exact ih _ _ hrest
    · obtain rfl : k = p.1 := by simpa [hrest] using hk
      rw [writeRegs, writeRegs, reg_writeRegs_notMem _ _ _ hrest, reg_writeRegs_notMem _ _ _ hrest, writeReg, writeReg,
        reg_setReg_self _ _ _ h2, reg_setReg_self _ _ _ h2]

/-- Settles O36: alike states give one result and one set of flags, and a completion writes them whatever else the state holds. -/
theorem commandsReadSignAndMagnitudeOnly : Obligations.CommandsReadSignAndMagnitudeOnly := by
  intro i s s' h
  by_cases hd : i.dests = []
  · refine ⟨_, _, exec_of_dests_eq_nil hd s, exec_of_dests_eq_nil hd s', rfl, fun _ => ⟨by simp [hd], fun _ => ?_⟩⟩
    exact h.commandFlags_eq hd
  · rw [exec_of_dests_ne_nil hd, exec_of_dests_ne_nil hd, ← h.commandResult_eq i]
    cases hlegal : destsLegal i.dests with
    | false => exact ⟨_, _, commit_illegal hlegal _ s, commit_illegal hlegal _ s', rfl, fun hok => by cases hok⟩
    | true =>
      cases hvs : commandResult s i with
      | error e => exact ⟨_, _, commit_error hlegal e s, commit_error hlegal e s', rfl, fun hok => by cases hok⟩
      | ok vs =>
        refine ⟨_, _, commit_ok hlegal vs s, commit_ok hlegal vs s', rfl, fun _ => ⟨fun d hmem => ?_, fun hnil => absurd hnil hd⟩⟩
        rw [reg_finish, reg_finish]
        exact reg_writeRegs_congr s s' (by rwa [map_fst_zip_commandResult hvs]) (((destsLegal_iff _).1 hlegal).1 d hmem)

end Sys2Proof.Machine

/-! The register window and the reset: who changes `FLAGS` (O37), `ERRSTICKY` (O49) and `CMD` (O42), the writes to the control
registers (O45, O46), and the values after reset (O40). -/

namespace Sys2Proof.Machine

/-! ### Which turn a step took -/

theorem head?_of_hostTurn {s : State} {a : HostAccess}
    (h : s.turns.head? = some (.host a) ∨ (s.turns = [] ∧ Turn.host a = .block)) : s.turns.head? = some (.host a) :=
  h.resolve_right fun h' => nomatch h'.2

/-- The block's turn comes from the schedule or because none is left. -/
theorem empty_or_head?_of_blockTurn {s : State} (h : s.turns.head? = some .block ∨ (s.turns = [] ∧ Turn.block = .block)) :
    s.turns = [] ∨ s.turns.head? = some .block :=
  h.symm.imp_left And.left

/-! ### `FLAGS` (R34) -/

theorem flags_hostRead (a : Addr) (s : State) : (hostRead a s).flags = s.flags := by
  obtain ⟨v, _, h⟩ | ⟨_, h⟩ := hostRead_cases a s <;> simp [h]

theorem flags_writeLocation (s : State) (v : Word) (l : Location) : (writeLocation s v l).flags = s.flags := by
  obtain h | h | h | ⟨_, h⟩ | ⟨_, h⟩ | ⟨_, h⟩ | ⟨_, h | h⟩ | h | ⟨_, k, r, h⟩ := writeLocation_cases s v l <;> simp [h]

/-- A host access other than a reset leaves `FLAGS` as it is. -/
theorem flags_hostAccess {h : HostAccess} (hne : h ≠ .setRst true) (s : State) : (hostAccess h s).flags = s.flags := by
  cases h with
  | memRead a => exact flags_hostRead a s
  | memWrite a v => exact flags_writeLocation s v (locate a)
  | setRst level =>
    cases level with
    | true => exact absurd rfl hne
    | false => rfl

/-- A completion that changes `FLAGS` is a comparison's. -/
theorem decode_cmd_of_complete_flags_ne {s t : State} (h : complete s = .next t) (hne : t.flags ≠ s.flags) :
    ∃ a b, decode s.cmd = .ok (.cmpm a b) ∨ decode s.cmd = .ok (.eqmu a b) := by
  obtain rfl | ⟨i, hdec, hi⟩ := complete_cases h
  · exact absurd rfl hne
  · obtain ⟨hnil, _⟩ | ⟨_, e, rfl⟩ | ⟨_, _, vs, _, rfl⟩ := exec_cases hi
    · obtain ⟨a, b, rfl | rfl⟩ := (dests_eq_nil_iff i).1 hnil
      · exact ⟨a, b, .inl hdec⟩
      · exact ⟨a, b, .inr hdec⟩
    · exact absurd rfl hne
    · exact absurd (flags_writeRegs s _) hne

/-- Settles O37: of the four things a turn can do, only a reset and the completion of a comparison change `FLAGS`. -/
theorem flagsChangeOnlyByComparison : Obligations.FlagsChangeOnlyByComparison := by
  intro s t hstep hne
  obtain ⟨u, hturn, hnext⟩ := step_cases hstep
  obtain ⟨hrst, _⟩ | ⟨_, h, rfl, rfl⟩ | ⟨hrst, rfl, hbusy, hc⟩ | ⟨_, _, _, rfl⟩ := takeTurn_cases hturn
  · exact .inl (.inl hrst)
  · by_cases hh : h = .setRst true
    · exact .inl (.inr (hh ▸ head?_of_hostTurn hnext))
    · exact absurd (flags_hostAccess hh (afterTurn s)) hne
  · exact .inr ⟨⟨hbusy, hrst, empty_or_head?_of_blockTurn hnext⟩, decode_cmd_of_complete_flags_ne (s := afterTurn s) hc hne⟩
  · exact absurd rfl hne

/-! ### `ERRSTICKY` (R41) -/

/-- Bit `c` of `ERRSTICKY` (R41). -/
def Sticky.bit (t : Sticky) : Nat → Bool
  | 1 => t.capacityExceeded
  | 2 => t.divideByZero
  | 4 => t.bitIndexOutOfRange
  | 5 => t.illegalCommand
  | 6 => t.busyViolation
  | _ => false

theorem getLsbD_stickyWord (t : Sticky) (c : Nat) : (stickyWord t).getLsbD c = t.bit c := by
  obtain ⟨b1, b2, b4, b5, b6⟩ := t
  by_cases hc : c < 7
  · revert b1 b2 b4 b5 b6
    interval_cases c <;> decide
  · obtain ⟨n, rfl⟩ : ∃ n, c = n + 7 := ⟨c - 7, by omega⟩
    have hlt : (stickyWord ⟨b1, b2, b4, b5, b6⟩).toNat < 2 ^ 7 := by
      revert b1 b2 b4 b5 b6
      decide
    exact Nat.testBit_lt_two_pow (lt_of_lt_of_le hlt (Nat.pow_le_pow_right (by decide) (by omega)))

/-- A write to `ERRSTICKY` clears exactly the bits written 1. -/
theorem bit_clear (t : Sticky) (v : Word) (c : Nat) : (t.clear v).bit c = (t.bit c && !v.getLsbD c) := by
  unfold Sticky.bit
  split <;> rfl

/-- Recording an error clears no bit. -/
theorem bit_record {t : Sticky} {c : Nat} (h : t.bit c = true) (e : CmdError) : (t.record e).bit c = true := by
  unfold Sticky.bit at *
  cases e <;> split <;> simp_all [Sticky.record]

/-- Flagging a dropped write, or leaving that open, clears no bit. -/
theorem bit_orBusyViolation {t : Sticky} {c : Nat} (h : t.bit c = true) (b : Bool) :
    Sticky.bit { t with busyViolation := t.busyViolation || b } c = true := by
  unfold Sticky.bit at *
  split <;> simp_all

/-- Only address 6 is `ERRSTICKY` (R35). -/
theorem eq_six_of_locate {a : Addr} (h : locate a = .errSticky) : a = 6 := by
  simp only [locate] at h
  split_ifs at h
  exact BitVec.eq_of_toNat_eq ‹_›

/-- Only address 0 is `CMD` (R35). -/
theorem eq_zero_of_locate {a : Addr} (h : locate a = .cmd) : a = 0 := by
  simp only [locate] at h
  split_ifs at h
  exact BitVec.eq_of_toNat_eq ‹_›

/-- A write to `STATUS` clears `DONE` of an idle block when bit 1 is 1, and does nothing else (R37). -/
theorem writeLocation_status (s : State) (v : Word) :
    writeLocation s v .status = { s with done := s.done && (s.busy || !v.getLsbD 1) } := by
  have hclears : (s.busy || !v.getLsbD 1) = !(!s.busy && v.getLsbD 1) := by simp
  rw [hclears, writeLocation]
  cases !s.busy && v.getLsbD 1 <;> simp

/-- A write to a BigNum location can only flag itself as dropped. -/
theorem sticky_writeBigNum (k : Reg) (f : BigNum → BigNum) (s : State) :
    ∃ b, (writeBigNum k f s).sticky = { s.sticky with busyViolation := s.sticky.busyViolation || b } := by
  obtain ⟨_, _, h⟩ | ⟨_, _, h⟩ | ⟨_, _, h⟩ | ⟨_, _, h⟩ := writeBigNum_cases k f s
  · exact ⟨false, by simp [h]⟩
  · exact ⟨true, by simp [h]⟩
  · exact ⟨false, by simp [h]⟩
  · exact ⟨Config.freeBit s.freeCount, by simp [h]⟩

/-- So can every host write but the one to `ERRSTICKY`. -/
theorem sticky_writeLocation {l : Location} (hl : l ≠ .errSticky) (s : State) (v : Word) :
    ∃ b, (writeLocation s v l).sticky = { s.sticky with busyViolation := s.sticky.busyViolation || b } := by
  cases l with
  | cmd | arg0 | arg1 => exact ⟨s.busy, by cases hb : s.busy <;> simp [writeLocation, hb]⟩
  | status => exact ⟨false, by simp [writeLocation_status]⟩
  | ctrl | flags | capacity | reserved => exact ⟨false, by simp [writeLocation]⟩
  | errSticky => exact absurd rfl hl
  | metaOf k | word k i => exact sticky_writeBigNum k _ s

theorem sticky_hostRead (a : Addr) (s : State) : (hostRead a s).sticky = s.sticky := by
  obtain ⟨v, _, h⟩ | ⟨_, h⟩ := hostRead_cases a s <;> simp [h]

/-- A host access that clears a sticky bit is a reset or a write of 1 to that bit. -/
theorem hostAccess_clearing_sticky_bit {h : HostAccess} {s : State} {c : Nat} (hset : s.sticky.bit c = true)
    (hclear : (hostAccess h s).sticky.bit c = false) : h = .setRst true ∨ ∃ v, h = .memWrite 6 v ∧ v.getLsbD c = true := by
  cases h with
  | memRead a => simp [hostAccess, sticky_hostRead, hset] at hclear
  | memWrite a v =>
    by_cases hl : locate a = .errSticky
    · have hbit : (s.sticky.clear v).bit c = false := by simpa [hostAccess, hostWrite, hl, writeLocation] using hclear
      refine .inr ⟨v, congrArg₂ _ (eq_six_of_locate hl) rfl, ?_⟩
      simpa [bit_clear, hset] using hbit
    · obtain ⟨b, hb⟩ := sticky_writeLocation hl s v
      simp [hostAccess, hostWrite, hb, bit_orBusyViolation hset] at hclear
  | setRst level =>
    cases level with
    | true => exact .inl rfl
    | false => simp [hostAccess, hset] at hclear

/-- A completion clears no sticky bit (R98, R247). -/
theorem bit_complete {s t : State} {c : Nat} (h : complete s = .next t) (hset : s.sticky.bit c = true) : t.sticky.bit c = true := by
  obtain rfl | ⟨i, _, hi⟩ := complete_cases h
  · exact bit_record hset _
  · obtain ⟨_, rfl⟩ | ⟨_, e, rfl⟩ | ⟨_, _, vs, _, rfl⟩ := exec_cases hi
    · exact hset
    · exact bit_record hset e
    · rwa [sticky_finish, sticky_writeRegs]

/-- Settles O49: of the four things a turn can do, only a reset and a host write of 1 to the bit clear it. -/
theorem stickyBitsStaySet : Obligations.StickyBitsStaySet := by
  intro s t c hstep hset hclear
  rw [getLsbD_stickyWord] at hset hclear
  obtain ⟨u, hturn, hnext⟩ := step_cases hstep
  obtain ⟨hrst, _⟩ | ⟨_, h, rfl, rfl⟩ | ⟨_, _, _, hc⟩ | ⟨_, _, _, rfl⟩ := takeTurn_cases hturn
  · exact .inl hrst
  · have hhead := head?_of_hostTurn hnext
    obtain rfl | ⟨v, rfl, hv⟩ := hostAccess_clearing_sticky_bit (s := afterTurn s) hset hclear
    · exact .inr (.inl hhead)
    · exact .inr (.inr ⟨v, hhead, hv⟩)
  · exact absurd ((bit_complete (s := afterTurn s) hc hset).symm.trans hclear) Bool.false_ne_true.symm
  · exact absurd (hset.symm.trans hclear) Bool.false_ne_true.symm

/-! ### Host writes to the control registers (R36 to R42) -/

theorem cmd_writeBigNum (k : Reg) (f : BigNum → BigNum) (s : State) : (writeBigNum k f s).cmd = s.cmd := by
  obtain ⟨_, _, h⟩ | ⟨_, _, h⟩ | ⟨_, _, h⟩ | ⟨_, _, h⟩ := writeBigNum_cases k f s <;> simp [h]

/-- Only a write to `CMD` changes `CMD` (R36). -/
theorem cmd_writeLocation {l : Location} (hl : l ≠ .cmd) (s : State) (v : Word) : (writeLocation s v l).cmd = s.cmd := by
  cases l with
  | cmd => exact absurd rfl hl
  | status => rw [writeLocation_status]
  | arg0 | arg1 => cases hb : s.busy <;> simp [writeLocation, hb]
  | ctrl | flags | errSticky | capacity | reserved => rfl
  | metaOf k | word k i => exact cmd_writeBigNum k _ s

/-- Settles O42: the write by the two values of `BUSY`, and the frame of every other access and of every command. -/
theorem cmdWriteStartsACommand : Obligations.CmdWriteStartsACommand := by
  refine ⟨fun s c => ⟨fun hidle => ?_, fun hbusy => ?_⟩, fun s => rfl, fun s a v ha => ?_, fun i s t h => ?_, rfl⟩
  · exact if_neg (by simp [hidle])
  · exact if_pos hbusy
  · exact cmd_writeLocation (fun hl => ha (eq_zero_of_locate hl)) s v
  · obtain ⟨_, _, hcmd, _⟩ := exec_untouched h
    exact hcmd

/-- Settles O46: each step is its host write, which these registers take while idle or at any time. -/
theorem controlRegisterWrites : Obligations.ControlRegisterWrites := by
  intro s v
  refine ⟨fun h => ?_, fun h => ?_, fun h hidle => ?_, fun h hidle => ?_, fun h => ?_⟩ <;> rw [step_of_nextTurnIs_host h]
  · exact congrArg _ (writeLocation_status (afterTurn s) v)
  · rfl
  · exact congrArg _ (if_neg (by simp [afterTurn, hidle]))
  · exact congrArg _ (if_neg (by simp [afterTurn, hidle]))
  · rfl

/-- Settles O45: the address names `METAk`, and the write sets one register, `top` and `sg` of it only. -/
theorem metaWriteSetsTopAndSign : Obligations.MetaWriteSetsTopAndSign := by
  intro s a v k h hidle hk ha
  have hloc : locate a = .metaOf k := by
    have hlt := k.isLt
    have : a = BitVec.ofNat 13 (metaAddr k) := BitVec.eq_of_toNat_eq (by simp [metaAddr, ha]; omega)
    rw [this, locate_metaAddr]
  have hwrite : hostAccess (.memWrite a v) (afterTurn s) = (afterTurn s).setReg k (setMeta (s.reg k) v) := by
    rw [hostAccess, hostWrite, hloc, writeLocation, writeBigNum, if_pos hk]
    exact if_neg (by simp [afterTurn, hidle])
  have hself := reg_setReg_self (afterTurn s) k (setMeta (s.reg k) v) hk
  refine ⟨_, step_of_nextTurnIs_host h, ?_⟩
  simp only [hwrite, hself]
  refine ⟨BitVec.toNat_ofNat _ _, rfl, rfl, fun j hj => reg_setReg_ne _ _ _ _ hj, ?_, turns_setReg _ _ _⟩
  simp [ControlUnchanged, afterTurn]

/-! ### Reset (R47) -/

theorem reg_reset (k : Reg) : State.reset.reg k = if k = 1 then BigNum.one else BigNum.zero := by
  fin_cases k <;> rfl

theorem word_zero {i : Nat} (hi : i < Config.cap) : BigNum.zero.word i = 0 := by
  simp [BigNum.word, BigNum.zero, hi]

theorem word_one {i : Nat} (hi : i < Config.cap) : BigNum.one.word i = if i = 0 then 1 else 0 := by
  cases i with
  | zero => rfl
  | succ i => simp [BigNum.word, BigNum.one, show i < Config.cap - 1 by omega]

/-- Settles O40: each control register by its definition, each BigNum register as the constant it holds. -/
theorem resetValues : Obligations.ResetValues := by
  refine ⟨rfl, rfl, rfl, rfl, rfl, rfl, rfl, rfl, rfl, rfl, rfl, fun k => ?_⟩
  rw [reg_reset]
  by_cases hk : k = 1
  · simp only [hk, if_true, true_and]
    exact ⟨rfl, rfl, fun i hi => word_one hi⟩
  · simp only [hk, if_false, false_and]
    exact ⟨rfl, rfl, fun i hi => word_zero hi⟩

end Sys2Proof.Machine

/-! Proofs of the family "memory": what the host reads at every address of the window (O43), and what its writes set, ignore or drop
(O44, O47, O48). First the rules these share: the location each address names, the word a read returns, and a write to a BigNum
location. -/

namespace Sys2Proof.Machine

/-! ### The address map (R35, R61) -/

/-- An address is known by its number, so that `locate` can be evaluated on the literal. -/
theorem locate_of_toNat {a : Addr} {n : Nat} (h : a.toNat = n) : locate a = locate (BitVec.ofNat 13 n) := by
  rw [← h, BitVec.ofNat_toNat, BitVec.setWidth_eq]

theorem locate_meta {a : Addr} {k : Reg} (h : a.toNat = 0x8 + k.val) : locate a = .metaOf k :=
  (locate_of_toNat h).trans (locate_metaAddr k)

theorem locate_word {a : Addr} {k : Reg} {i : Nat} (hi : i < Config.cap) (h : a.toNat = 0x1000 + k.val * 0x200 + i) :
    locate a = .word k i :=
  (locate_of_toNat h).trans (locate_wordAddr k i hi)

/-- Every address from 0x1000 on is a word of a register (R61). -/
theorem exists_word_of_toNat_ge {a : Addr} (h : 0x1000 ≤ a.toNat) :
    ∃ (k : Reg) (i : Nat), i < Config.cap ∧ a.toNat = 0x1000 + k.val * 0x200 + i := by
  have hlt := a.isLt
  refine ⟨⟨(a.toNat - 0x1000) / 0x200, by omega⟩, (a.toNat - 0x1000) % 0x200, Nat.mod_lt _ (by decide), ?_⟩
  simp only
  omega

/-! ### The words read (R34, R37, R41, R42, R62) -/

theorem errCode_le (e : Option CmdError) : errCode e ≤ 5 := by
  rcases e with _ | _ | _ | _ | _ <;> decide

theorem toNat_statusWord (s : State) : (statusWord s).toNat = s.busy.toNat + 2 * s.done.toNat + 16 * errCode s.err := by
  have hbusy := s.busy.toNat_le
  have hdone := s.done.toNat_le
  have herr := errCode_le s.err
  rw [statusWord, BitVec.toNat_ofNat]
  omega

theorem toNat_flagsWord (f : Flags) : (flagsWord f).toNat = f.lt.toNat + 2 * f.eq.toNat + 4 * f.gt.toNat := by
  have hlt := f.lt.toNat_le
  have heq := f.eq.toNat_le
  have hgt := f.gt.toNat_le
  rw [flagsWord, BitVec.toNat_ofNat]
  omega

theorem toNat_stickyWord (t : Sticky) :
    (stickyWord t).toNat = 2 * t.capacityExceeded.toNat + 4 * t.divideByZero.toNat + 16 * t.bitIndexOutOfRange.toNat
      + 32 * t.illegalCommand.toNat + 64 * t.busyViolation.toNat := by
  obtain ⟨b1, b2, b4, b5, b6⟩ := t
  revert b1 b2 b4 b5 b6
  decide

theorem toNat_metaWord (r : BigNum) : (metaWord r).toNat = 2 ^ 31 * r.sg.toNat + r.top.toNat := by
  have hsg := r.sg.toNat_le
  have htop : r.top.toNat < 2 ^ 9 := r.top.isLt
  rw [metaWord, BitVec.toNat_ofNat]
  omega

/-- Taking a turn off the schedule changes no word the host can read. -/
theorem readLocation_afterTurn (s : State) (l : Location) : readLocation (afterTurn s) l = readLocation s l := by
  cases l <;> rfl

/-- The step of a read changes the port's read data and the count of free values only, and the word read is the location's where
R62 gives it one. -/
theorem step_memRead {s : State} {a : Addr} (h : NextTurnIs s (.host (.memRead a))) :
    ∃ (v : Word) (n : Nat), step s = .next { afterTurn s with readData := v, freeCount := n } ∧
      ∀ w, readLocation s (locate a) = some w → v = w := by
  rw [step_of_nextTurnIs_host h, ← readLocation_afterTurn]
  obtain ⟨v, hv, hread⟩ | ⟨hnone, hread⟩ := hostRead_cases a (afterTurn s)
  · exact ⟨v, _, congrArg _ hread, fun w hw => Option.some.inj (hv.symm.trans hw)⟩
  · exact ⟨_, _, congrArg _ hread, fun w hw => nomatch hnone.symm.trans hw⟩

/-- Settles O43: each address names one location, and the word read there is the location's. -/
theorem windowReadValues : Obligations.WindowReadValues := by
  intro s a h
  obtain ⟨v, n, hstep, hv⟩ := step_memRead h
  have hread : ∀ {l : Location} {w : Word}, locate a = l → readLocation s l = some w → v = w := fun hl hw => hv _ (hl ▸ hw)
  refine ⟨v, n, hstep, fun ha => ?_, fun ha => ?_, fun ha => ?_, fun ha => ?_, fun ha => ?_, fun ha => ?_, fun ha => ?_,
    fun ha => ?_, fun hlo hhi => ?_, fun hidle k ha => ?_, fun hidle k i hi ha => ?_⟩
  · exact hread (locate_of_toNat ha) rfl
  · rw [hread (locate_of_toNat ha) rfl, toNat_statusWord]
  · rw [hread (locate_of_toNat ha) rfl]
    cases s.ie <;> rfl
  · rw [hread (locate_of_toNat ha) rfl, toNat_flagsWord]
  · exact hread (locate_of_toNat ha) rfl
  · exact hread (locate_of_toNat ha) rfl
  · rw [hread (locate_of_toNat ha) rfl, toNat_stickyWord]
  · rw [hread (locate_of_toNat ha) rfl]
    rfl
  · exact hread (locate_reserved a hlo hhi) rfl
  · rw [hread (locate_meta ha) (w := metaWord (s.reg k)) (by simp [readLocation, hidle]), toNat_metaWord]
  · exact hread (locate_word hi ha) (by simp [readLocation, hidle])

/-! ### Writes to the BigNum registers (R63, R65, R67) -/

theorem writeBigNum_general_idle {k : Reg} {s : State} (hk : 2 ≤ k.val) (hidle : s.busy = false) (f : BigNum → BigNum) :
    writeBigNum k f s = s.setReg k (f (s.reg k)) := by simp [writeBigNum, hk, hidle]

theorem writeBigNum_general_busy {k : Reg} {s : State} (hk : 2 ≤ k.val) (hbusy : s.busy = true) (f : BigNum → BigNum) :
    writeBigNum k f s = dropBusy s := by simp [writeBigNum, hk, hbusy]

theorem writeBigNum_constant_idle {k : Reg} {s : State} (hk : k.val < 2) (hidle : s.busy = false) (f : BigNum → BigNum) :
    writeBigNum k f s = s := by simp [writeBigNum, Nat.not_le.2 hk, hidle]

theorem writeBigNum_constant_busy {k : Reg} {s : State} (hk : k.val < 2) (hbusy : s.busy = true) (f : BigNum → BigNum) :
    writeBigNum k f s = dropReadOnlyBusy s := by simp [writeBigNum, Nat.not_le.2 hk, hbusy]

theorem hostWrite_meta {a : Addr} {k : Reg} (h : a.toNat = 0x8 + k.val) (v : Word) (s : State) :
    hostWrite a v s = writeBigNum k (fun r => setMeta r v) s := by
  rw [hostWrite, locate_meta h, writeLocation]

theorem hostWrite_word {a : Addr} {k : Reg} {i : Nat} (hi : i < Config.cap) (h : a.toNat = 0x1000 + k.val * 0x200 + i) (v : Word)
    (s : State) : hostWrite a v s = writeBigNum k (fun r => r.setWord i v) s := by
  rw [hostWrite, locate_word hi h, writeLocation]

/-- A write to a `METAk` or a BigNum word is a write to one register: a general one from 0xA or 0x1400 on, else a constant. -/
theorem hostWrite_bigNum {a : Addr} (h : (0x8 ≤ a.toNat ∧ a.toNat < 0x10) ∨ 0x1000 ≤ a.toNat) (v : Word) (s : State) :
    ∃ (k : Reg) (f : BigNum → BigNum), hostWrite a v s = writeBigNum k f s ∧
      (2 ≤ k.val ↔ (0xA ≤ a.toNat ∧ a.toNat < 0x10) ∨ 0x1400 ≤ a.toNat) := by
  obtain ⟨hlo, hhi⟩ | hword := h
  · have ha : a.toNat = 0x8 + (⟨a.toNat - 0x8, by omega⟩ : Reg).val := by simp only; omega
    exact ⟨_, _, hostWrite_meta ha v s, by simp only; omega⟩
  · obtain ⟨k, i, hi, ha⟩ := exists_word_of_toNat_ge hword
    exact ⟨k, _, hostWrite_word hi ha v s, by simp only [Config.cap] at hi; omega⟩

/-- The addresses of `META2` to `META7` and of the words of `B2` to `B7`. -/
theorem hostWrite_general {a : Addr} (h : (0xA ≤ a.toNat ∧ a.toNat < 0x10) ∨ 0x1400 ≤ a.toNat) (v : Word) (s : State) :
    ∃ (k : Reg) (f : BigNum → BigNum), 2 ≤ k.val ∧ hostWrite a v s = writeBigNum k f s := by
  obtain ⟨k, f, hwrite, hk⟩ := hostWrite_bigNum (a := a) (by omega) v s
  exact ⟨k, f, hk.2 h, hwrite⟩

/-- The addresses of `META0`, `META1` and of the words of `B0` and `B1`. -/
theorem hostWrite_constant {a : Addr} (h : a.toNat = 8 ∨ a.toNat = 9 ∨ (0x1000 ≤ a.toNat ∧ a.toNat < 0x1400)) (v : Word)
    (s : State) : ∃ (k : Reg) (f : BigNum → BigNum), k.val < 2 ∧ hostWrite a v s = writeBigNum k f s := by
  obtain ⟨k, f, hwrite, hk⟩ := hostWrite_bigNum (a := a) (by omega) v s
  exact ⟨k, f, by omega, hwrite⟩

/-- `FLAGS`, `CAPACITY` and the reserved addresses take no write at all, the constants none while idle (R65). -/
theorem hostWrite_ignored {a : Addr} {s : State}
    (h : a.toNat = 3 ∨ a.toNat = 7 ∨ (0x10 ≤ a.toNat ∧ a.toNat < 0x1000) ∨
      (s.busy = false ∧ (a.toNat = 8 ∨ a.toNat = 9 ∨ (0x1000 ≤ a.toNat ∧ a.toNat < 0x1400)))) (v : Word) :
    hostWrite a v s = s := by
  obtain hflags | hcap | ⟨hlo, hhi⟩ | ⟨hidle, hconst⟩ := h
  · exact congrArg (writeLocation s v) (locate_of_toNat hflags)
  · exact congrArg (writeLocation s v) (locate_of_toNat hcap)
  · exact congrArg (writeLocation s v) (locate_reserved a hlo hhi)
  · obtain ⟨k, f, hk, hwrite⟩ := hostWrite_constant hconst v s
    exact hwrite.trans (writeBigNum_constant_idle hk hidle f)

/-- While busy a write that R67 alone speaks of is dropped and flagged. -/
theorem hostWrite_dropped {a : Addr} {s : State} (hbusy : s.busy = true)
    (h : a.toNat = 0 ∨ a.toNat = 4 ∨ a.toNat = 5 ∨ (0xA ≤ a.toNat ∧ a.toNat < 0x10) ∨ 0x1400 ≤ a.toNat) (v : Word) :
    hostWrite a v s = dropBusy s := by
  obtain hcmd | harg0 | harg1 | hgeneral := h
  · exact (congrArg (writeLocation s v) (locate_of_toNat hcmd)).trans (if_pos hbusy)
  · exact (congrArg (writeLocation s v) (locate_of_toNat harg0)).trans (if_pos hbusy)
  · exact (congrArg (writeLocation s v) (locate_of_toNat harg1)).trans (if_pos hbusy)
  · obtain ⟨k, f, hk, hwrite⟩ := hostWrite_general hgeneral v s
    exact hwrite.trans (writeBigNum_general_busy hk hbusy f)

/-- Settles O44: the address names one word, and the write sets one register, that word of it only. -/
theorem wordWriteSetsOneWord : Obligations.WordWriteSetsOneWord := by
  intro s a v k i h hidle hk hi ha
  have hwrite : hostAccess (.memWrite a v) (afterTurn s) = (afterTurn s).setReg k ((s.reg k).setWord i v) :=
    (hostWrite_word hi ha v (afterTurn s)).trans (writeBigNum_general_idle (s := afterTurn s) hk hidle _)
  have hself := reg_setReg_self (afterTurn s) k ((s.reg k).setWord i v) hk
  refine ⟨_, step_of_nextTurnIs_host h, ?_⟩
  simp only [hwrite, hself]
  refine ⟨word_setWord_self _ _ _ hi, fun j hj => word_setWord_ne _ _ _ _ hj.symm, rfl, rfl,
    fun j hj => reg_setReg_ne _ _ _ _ hj, ?_, turns_setReg _ _ _⟩
  simp [ControlUnchanged, afterTurn]

/-- Settles O47: the step is an ignored write, and the constants are hardwired. -/
theorem readOnlyLocationsIgnoreWrites : Obligations.ReadOnlyLocationsIgnoreWrites := by
  refine ⟨fun s a v h ha => ?_, fun s => ⟨rfl, rfl, rfl, rfl, fun i hi => ⟨word_zero hi, word_one hi⟩⟩⟩
  rw [step_of_nextTurnIs_host h]
  exact congrArg _ (hostWrite_ignored (s := afterTurn s) ha v)

/-- Settles O48: the dropped write, flagged for the locations R67 alone speaks of, with a free flag for the constants. -/
theorem busyWritesAreDroppedAndFlagged : Obligations.BusyWritesAreDroppedAndFlagged := by
  intro s a v h hbusy
  rw [step_of_nextTurnIs_host h]
  refine ⟨fun ha => ?_, fun ha => ?_⟩
  · exact congrArg _ (hostWrite_dropped (s := afterTurn s) hbusy ha v)
  · obtain ⟨k, f, hk, hwrite⟩ := hostWrite_constant ha v (afterTurn s)
    have hdropped : hostWrite a v (afterTurn s) = dropReadOnlyBusy (afterTurn s) :=
      hwrite.trans (writeBigNum_constant_busy (s := afterTurn s) hk hbusy f)
    exact ⟨s.sticky.busyViolation || Config.freeBit s.freeCount, _, fun hset => by rw [hset, Bool.true_or], congrArg _ hdropped⟩

end Sys2Proof.Machine

/-! Proofs of the family "encoding". First the decoder and the encoder: a word is its fields (R91), a command is its row of the
opcode map (R92, R93), and a row's command has the row's used fields and no other (R96). -/

namespace Sys2Proof

/-! ### The word and its fields (R91) -/

@[simp] theorem val_selectorAt (w : Word) (lo : Nat) : (selectorAt w lo).val = w.toNat / 2 ^ lo % 8 := Fin.val_ofNat ..

theorem toNat_op_fieldsOf (w : Word) : (fieldsOf w).op.toNat = w.toNat / 2 ^ 24 := by
  have := w.isLt
  rw [fieldsOf, BitVec.toNat_ofNat]
  omega

theorem toNat_sg_fieldsOf (w : Word) : (fieldsOf w).sg.toNat = w.toNat % 2 := by
  obtain h | h : w.toNat % 2 = 0 ∨ w.toNat % 2 = 1 := by omega
  · simp [fieldsOf, h]
  · simp [fieldsOf, h]

/-- The fields cover the word, so that it is the word of its fields. -/
theorem wordOf_fieldsOf (w : Word) : wordOf (fieldsOf w) = w := by
  apply BitVec.eq_of_toNat_eq
  rw [toNat_wordOf, toNat_op_fieldsOf, toNat_sg_fieldsOf]
  simp only [fieldsOf, val_selectorAt, BitVec.toNat_ofNat]
  omega

/-! ### The rows of the opcode map (R92, R93, R96) -/

/-- The fields with every field a command does not use at 0 (R96). -/
def Fields.keep (u : Uses) (f : Fields) : Fields where
  op := f.op
  rd0 := if u.rd0 then f.rd0 else 0
  rd1 := if u.rd1 then f.rd1 else 0
  rd2 := if u.rd2 then f.rd2 else 0
  rs0 := if u.rs0 then f.rs0 else 0
  rs1 := if u.rs1 then f.rs1 else 0
  rs2 := if u.rs2 then f.rs2 else 0
  zero := 0
  sg := u.sg && f.sg

theorem keep_of_unusedZero {u : Uses} {f : Fields} (h : unusedZero u f = true) : f.keep u = f := by
  obtain ⟨op, rd0, rd1, rd2, rs0, rs1, rs2, zero, sg⟩ := f
  simp only [unusedZero, Bool.and_eq_true, Bool.or_eq_true, beq_iff_eq, Bool.not_eq_true'] at h
  simp only [Fields.keep, Fields.mk.injEq, true_and, ite_eq_left_iff, Bool.not_eq_true, Bool.and_eq_right_iff_imp]
  grind

/-- A row's command has the row's opcode and the fields the row uses. -/
theorem fieldsOfInstr_build {r : OpRow} (hr : r ∈ opcodeMap) (f : Fields) :
    fieldsOfInstr (r.build f) = { f.keep r.uses with op := r.op } := by
  unfold opcodeMap at hr
  fin_cases hr <;> rfl

/-- What fields that spell a command are: a row of the map for their opcode, nothing set but what the row uses (R99). -/
theorem decodeFields_ok {f : Fields} {i : Instr} (h : decodeFields f = .ok i) :
    ∃ r ∈ opcodeMap, r.op = f.op ∧ unusedZero r.uses f = true ∧ r.build f = i := by
  unfold decodeFields at h
  split at h
  · cases h
  · next r hfind =>
    split at h
    · next hzero => exact ⟨r, List.mem_of_find?_eq_some hfind, by simpa using List.find?_some hfind, hzero, Except.ok.inj h⟩
    · cases h

/-- The fields that spell a command are its own fields. -/
theorem fieldsOfInstr_of_decodeFields {f : Fields} {i : Instr} (h : decodeFields f = .ok i) : fieldsOfInstr i = f := by
  obtain ⟨r, hr, hop, hzero, rfl⟩ := decodeFields_ok h
  rw [fieldsOfInstr_build hr, keep_of_unusedZero hzero, hop]

/-- A command's own fields spell it: its opcode is in the map, and its row takes each operand from where the encoder puts it. -/
theorem decodeFields_fieldsOfInstr (i : Instr) : decodeFields (fieldsOfInstr i) = .ok i := by
  cases i <;> rfl

/-- Settles O1: the word's fields are the command's, and these spell it. -/
theorem decodeOfEncodeIsTheCommand : Obligations.DecodeOfEncodeIsTheCommand := by
  intro i
  rw [decode, encode, fieldsOf_wordOf, decodeFields_fieldsOfInstr]

/-- Settles O2: the command's fields are the word's, and the word is the one they make. -/
theorem encodeOfDecodeIsTheWord : Obligations.EncodeOfDecodeIsTheWord := by
  intro w i h
  rw [encode, fieldsOfInstr_of_decodeFields h, wordOf_fieldsOf]

/-- Settles O3, by evaluating the decoder on each word. -/
theorem workedEncodingsAreDecoded : Obligations.WorkedEncodingsAreDecoded := by
  unfold Obligations.WorkedEncodingsAreDecoded
  decide

/-! ### Words that are no command (R95) -/

/-- A word whose opcode is in no row has an unknown opcode. -/
theorem decode_of_op_notMem {w : Word} (h : w.toNat / 2 ^ 24 ∉ opcodeMap.map (·.op.toNat)) : decode w = .error .unknownOpcode := by
  have hfind : opcodeMap.find? (·.op == (fieldsOf w).op) = none := by
    refine List.find?_eq_none.2 fun r hr hop => h (List.mem_map.2 ⟨r, hr, ?_⟩)
    rw [eq_of_beq hop, toNat_op_fieldsOf]
  rw [decode, decodeFields, hfind]

end Sys2Proof

/-! What the step of a block turn is (O4), that every step answers (O33), and what an illegal command does: a word that is none
(O6), and a command whose destinations break R97 (O7). -/

namespace Sys2Proof.Machine

/-! ### The block's turn (R98, R258) -/

theorem takeTurn_next (u : Turn) (s : State) : ∃ t, takeTurn u s = .next t := by
  unfold takeTurn
  split
  · exact ⟨_, rfl⟩
  · cases u with
    | host h => exact ⟨_, rfl⟩
    | block =>
      dsimp only
      split
      · exact complete_next s
      · exact ⟨_, rfl⟩

/-- Settles O33: a step is a turn, and every turn answers a next state. -/
theorem noStepStops : Obligations.NoStepStops := by
  intro s
  unfold step nextTurn
  split <;> exact takeTurn_next _ _

/-- Settles O32: every command answers, and what it answers keeps what R247 lists. -/
theorem everyCommandCompletes : Obligations.EveryCommandCompletes := by
  intro i s
  obtain ⟨t, ht⟩ := exec_next i s
  exact ⟨t, ht, exec_untouched ht⟩

/-- With the block's turn next, scheduled or because none is left, the step is the block's turn. -/
theorem step_of_blockNext {s : State} (h : s.turns = [] ∨ s.turns.head? = some .block) : step s = takeTurn .block (afterTurn s) := by
  obtain ⟨t, ht⟩ := noStepStops s
  obtain ⟨u, hu, hnext⟩ := step_cases ht
  have hblock : u = .block := by grind
  rw [ht, ← hu, hblock]

theorem step_of_blockCompletesNext {s : State} (h : BlockCompletesNext s) : step s = complete (afterTurn s) := by
  obtain ⟨hbusy, hrst, hnext⟩ := h
  rw [step_of_blockNext hnext]
  simp [takeTurn, afterTurn, hrst, hbusy]

theorem step_of_blockIdlesNext {s : State} (h : BlockIdlesNext s) : step s = .next (afterTurn s) := by
  obtain ⟨hbusy, hrst, hnext⟩ := h
  rw [step_of_blockNext hnext]
  simp [takeTurn, afterTurn, hrst, hbusy]

theorem complete_of_decode_ok {s : State} {i : Instr} (h : decode s.cmd = .ok i) : complete s = exec i s := by
  simp [complete, h]

theorem complete_of_decode_error {s : State} {e : DecodeError} (h : decode s.cmd = .error e) :
    complete s = .next (raise .illegalCommand s) := by
  simp [complete, h]

/-- Settles O4: the step is the turn, for each agent and state of the block. -/
theorem blockTurnRunsTheDecodedCommand : Obligations.BlockTurnRunsTheDecodedCommand := by
  refine ⟨fun s hs => ⟨step_of_blockCompletesNext hs, fun i hi => ?_⟩, fun s => step_of_blockIdlesNext,
    fun s h => step_of_nextTurnIs_host, fun s => step_of_nextTurnIs_host⟩
  rw [step_of_blockCompletesNext hs]
  exact complete_of_decode_ok (s := afterTurn s) hi

/-! ### Words that are no command (R95, R247) -/

theorem step_failed_of_decode_error {s : State} {e : DecodeError} (hs : BlockCompletesNext s) (h : decode s.cmd = .error e) :
    Answers (step s) (Failed .illegalCommand (afterTurn s)) := by
  rw [step_of_blockCompletesNext hs, complete_of_decode_error (s := afterTurn s) h]
  exact ⟨_, rfl, failed_raise _ _⟩

/-- Settles O6: such a word does not decode, and opcode 0 is not listed. -/
theorem unlistedOpcodesAreIllegal : Obligations.UnlistedOpcodesAreIllegal := by
  refine ⟨fun s hs hop => step_failed_of_decode_error hs (decode_of_op_notMem hop), fun s hs hcmd => ?_⟩
  refine step_failed_of_decode_error hs (decode_of_op_notMem ?_)
  rw [hcmd]
  decide

/-! ### The errors a computation ends with (R240 to R244) -/

theorem exceptMap_eq_error {ε α β : Type} {f : α → β} {r : Except ε α} {e : ε} (h : r.map f = .error e) : r = .error e := by
  cases r with
  | error e' => exact congrArg _ (Except.error.inj h)
  | ok a => cases h

theorem checkCap_error {v : Int} {e : CmdError} (h : checkCap v = .error e) : e = .capacityExceeded := by
  unfold checkCap at h
  split at h
  · exact (Except.error.inj h).symm
  · cases h

theorem flipBit_error {sg : Int} {m n : Nat} {e : CmdError} (h : flipBit sg m n = .error e) :
    e = .bitIndexOutOfRange ∧ 32 * Config.cap ≤ n := by
  unfold flipBit at h
  split at h
  · exact ⟨(Except.error.inj h).symm, by omega⟩
  · cases h

theorem shiftBy_error {unit m : Nat} {sg n : Int} {e : CmdError} (h : shiftBy unit sg m n = .error e) :
    e = .capacityExceeded ∨ (e = .bitIndexOutOfRange ∧ (32 * Config.cap : Nat) ≤ (unit : Int) * n) := by
  unfold shiftBy at h
  split at h
  · next hout => exact .inr ⟨(Except.error.inj h).symm, hout⟩
  · split at h
    · exact .inl (checkCap_error h)
    · cases h

theorem divMag_error {a b : Nat} {e : CmdError} (h : divMag a b = .error e) : e = .divideByZero ∧ b = 0 := by
  unfold divMag at h
  split at h
  · next hb => exact ⟨(Except.error.inj h).symm, hb⟩
  · cases h

theorem divInt_error {x y : Int} {e : CmdError} (h : divInt x y = .error e) : e = .divideByZero ∧ y.natAbs = 0 := by
  by_cases hy : y = 0
  · rw [hy] at h
    exact ⟨(Except.error.inj h).symm, by rw [hy, Int.natAbs_zero]⟩
  · rw [divInt_of_ne hy] at h
    cases h

theorem modInt_error {x m : Int} {e : CmdError} (h : modInt x m = .error e) : e = .divideByZero ∧ m.natAbs = 0 := by
  by_cases hm : m = 0
  · rw [hm] at h
    exact ⟨(Except.error.inj h).symm, by rw [hm, Int.natAbs_zero]⟩
  · rw [modInt_of_ne hm] at h
    cases h

theorem nextOf_error {old q cur : Int} {e : CmdError} (h : nextOf old q cur = .error e) : e = .capacityExceeded := by
  unfold nextOf at h
  split at h
  · next hmul => exact (Except.error.inj h) ▸ checkCap_error hmul
  · exact checkCap_error h

/-- A pass of Euclid's loop divides by a non-zero `r`, so only its checks can fail (R220). -/
theorem gcdStep_error {p : GcdPairs} {e : CmdError} (hr : p.r ≠ 0) (h : gcdStep p = .error e) : e = .capacityExceeded := by
  rw [gcdStep, divInt_of_ne hr] at h
  dsimp only at h
  split at h
  · next hnext => exact (Except.error.inj h) ▸ nextOf_error hnext
  split at h
  · next hnext => exact (Except.error.inj h) ▸ nextOf_error hnext
  split at h
  · next hnext => exact (Except.error.inj h) ▸ nextOf_error hnext
  · cases h

theorem gcdLoop_error {n : Nat} {p : GcdPairs} {e : CmdError} (h : gcdLoop n p = .error e) : e = .capacityExceeded := by
  induction n generalizing p with
  | zero => cases h
  | succ n ih =>
    unfold gcdLoop at h
    split at h
    · cases h
    · next hr =>
      split at h
      · next hstep => exact (Except.error.inj h) ▸ gcdStep_error (by omega) hstep
      · exact ih h

theorem mulMod_error {x y m : Int} {e : CmdError} (hm : m ≠ 0) (h : mulMod x y m = .error e) : e = .capacityExceeded := by
  unfold mulMod at h
  split at h
  · next hmul => exact (Except.error.inj h) ▸ checkCap_error hmul
  · rw [modInt_of_ne hm] at h
    cases h

theorem powStep_error {m : Int} {p : PowWork} {e : CmdError} (hm : m ≠ 0) (h : powStep m p = .error e) : e = .capacityExceeded := by
  unfold powStep at h
  split at h
  · next hmul =>
    split at hmul
    · exact (Except.error.inj h) ▸ mulMod_error hm hmul
    · cases hmul
  · split at h
    · next hsquare => exact (Except.error.inj h) ▸ mulMod_error hm hsquare
    · cases h

theorem powLoop_error {m : Int} {n : Nat} {p : PowWork} {e : CmdError} (hm : m ≠ 0) (h : powLoop m n p = .error e) :
    e = .capacityExceeded := by
  induction n generalizing p with
  | zero => cases h
  | succ n ih =>
    unfold powLoop at h
    split at h
    · cases h
    · split at h
      · next hstep => exact (Except.error.inj h) ▸ powStep_error hm hstep
      · exact ih h

theorem modPow_error {base m : Int} {n : Nat} {e : CmdError} (h : modPow base n m = .error e) :
    e = .capacityExceeded ∨ (e = .divideByZero ∧ m.natAbs = 0) := by
  unfold modPow at h
  split at h
  · next hm => exact .inr ⟨(Except.error.inj h).symm, hm⟩
  · next hm => exact .inl (powLoop_error (by omega) (exceptMap_eq_error h))

/-- Why a command's computation fails (R241, R242, R244): its result or an intermediate one overflows, its divisor is zero, or its
amount is out of range. -/
theorem commandResult_error {s : State} {i : Instr} {e : CmdError} (h : commandResult s i = .error e) :
    e = .capacityExceeded ∨ (e = .divideByZero ∧ ∃ b, divisorOf i = some b ∧ magOf s b = 0) ∨
    (e = .bitIndexOutOfRange ∧ amountOutOfRange s i) := by
  have divides {b : Reg} (hb : divisorOf i = some b) (hzero : (valOf s b).natAbs = 0) : ∃ b, divisorOf i = some b ∧ magOf s b = 0 :=
    ⟨b, hb, (val_natAbs (s.reg b)).symm.trans hzero⟩
  cases i with
  | flipb d a => exact .inr (.inr (flipBit_error (exceptMap_eq_error h)))
  | shw d a | shb d a =>
    refine (shiftBy_error (exceptMap_eq_error h)).imp_right fun ⟨he, hout⟩ => .inr ⟨he, ?_⟩
    unfold amountOutOfRange
    omega
  | addm d a b | mulm d a b | add d a b | sub d a b | mul d a b =>
    simp only [commandResult, addMag, mulMag, addInt, subInt, mulInt] at h
    exact .inl (checkCap_error (exceptMap_eq_error h))
  | gcd d x y a b => exact .inl (gcdLoop_error (exceptMap_eq_error h))
  | divm q r a b =>
    obtain ⟨he, hzero⟩ := divMag_error (exceptMap_eq_error h)
    exact .inr (.inl ⟨he, b, rfl, hzero⟩)
  | div q r a b => exact .inr (.inl ((divInt_error (exceptMap_eq_error h)).imp_right (divides rfl)))
  | mod d a b => exact .inr (.inl ((modInt_error (exceptMap_eq_error h)).imp_right (divides rfl)))
  | modpow d base exp m => exact (modPow_error (exceptMap_eq_error h)).imp_right fun hzero => .inl (hzero.imp_right (divides rfl))
  | _ => cases h

/-! ### Illegal destinations (R97) -/

theorem destsLegal_eq_false_iff (ds : List Reg) : destsLegal ds = false ↔ (∃ d ∈ ds, d.val < 2) ∨ ¬ ds.Nodup := by
  rw [← Bool.not_eq_true, destsLegal_iff, not_and_or]
  simp

/-- A command's computation never answers `IllegalCommand`; only its destinations make the command raise it. -/
theorem exec_illegal_iff {i : Instr} {s t : State} (h : exec i s = .next t) :
    t.err = some .illegalCommand ↔ destsLegal i.dests = false := by
  by_cases hd : i.dests = []
  · rw [exec_of_dests_eq_nil hd] at h
    obtain rfl := Host.Outcome.next.inj h
    simp [hd, destsLegal]
  · rw [exec_of_dests_ne_nil hd] at h
    obtain ⟨hlegal, h'⟩ | ⟨hlegal, e, he, h'⟩ | ⟨hlegal, vs, _, h'⟩ := commit_cases i.dests (commandResult s i) s <;> rw [h'] at h <;>
      obtain rfl := Host.Outcome.next.inj h
    · simp [hlegal]
    · have hne : e ≠ .illegalCommand := by
        obtain rfl | ⟨rfl, _⟩ | ⟨rfl, _⟩ := commandResult_error he <;> exact CmdError.noConfusion
      simp [hlegal, hne]
    · simp [hlegal]

/-- A command that completes with an error leaves what R247 says. -/
theorem exec_failed {i : Instr} {s t : State} {e : CmdError} (h : exec i s = .next t) (he : t.err = some e) : Failed e s t := by
  obtain ⟨_, rfl⟩ | ⟨_, e', rfl⟩ | ⟨_, _, vs, _, rfl⟩ := exec_cases h
  · cases he
  · obtain rfl := Option.some.inj he
    exact failed_raise e' s
  · cases he

/-- Settles O7: the only source of `IllegalCommand` in a decoded command is the check of its destinations. -/
theorem destinationConstraintsExactly : Obligations.DestinationConstraintsExactly := by
  intro i s
  obtain ⟨t, ht⟩ := exec_next i s
  exact ⟨t, ht, (exec_illegal_iff ht).trans (destsLegal_eq_false_iff _), exec_failed ht⟩

end Sys2Proof.Machine

/-! Proofs of the family "construction": MOV (O8), LDU64 (O9) and the host's fromWords (O51). First the rules these share: a command
whose computation answers writes its result, and consecutive word writes through the window are one write to the register. -/

namespace Sys2Proof.Machine

/-! ### Commands that write a result (R98) -/

/-- A legal command whose computation answers writes its values to its destinations, in their order, and nothing else. -/
theorem exec_wrote {i : Instr} {s : State} {vs : List Int} (hd : i.dests ≠ []) (hwf : i.wf = true)
    (hvs : commandResult s i = .ok vs) : Answers (exec i s) (Wrote s · (i.dests.zip vs)) := by
  obtain ⟨hlen, hlt⟩ := fits_commandResult hvs
  rw [exec_of_dests_ne_nil hd, hvs]
  exact commit_wrote ((destsLegal_eq_wf i).trans hwf) vs hlen.symm s hlt

/-- The image a legal command leaves in its one destination is the canonical image of its result. -/
theorem reg_exec_of_dests_singleton {i : Instr} {s t : State} {d : Reg} {v : Int} (hd : i.dests = [d]) (hwf : i.wf = true)
    (hv : commandResult s i = .ok [v]) (h : exec i s = .next t) : t.reg d = pack v := by
  have hlegal : destsLegal [d] = true := hd ▸ (destsLegal_eq_wf i).trans hwf
  have hgeneral : 2 ≤ d.val := ((destsLegal_iff [d]).1 hlegal).1 d (List.mem_singleton_self d)
  rw [exec_of_dests_ne_nil (by simp [hd]), hd, hv, commit_ok hlegal] at h
  obtain rfl := Host.Outcome.next.inj h
  exact reg_setReg_self s d (pack v) hgeneral

/-- Settles O8: MOV's result is the source's value. -/
theorem movCopiesTheValue : Obligations.MovCopiesTheValue := fun d a _ hwf =>
  exec_wrote (i := .mov d a) (List.cons_ne_nil d []) hwf rfl

/-! ### LDU64 (R94, R122) -/

/-- A magnitude whose most significant word is word `t` has `top` = `t` (R10). -/
theorem topOf_eq_ofNat {m t : Nat} (hlo : 2 ^ (32 * t) ≤ m) (hhi : m < 2 ^ (32 * (t + 1))) : topOf m = BitVec.ofNat Config.idxW t := by
  have hm : m ≠ 0 := Nat.ne_zero_of_lt (lt_of_lt_of_le (Nat.two_pow_pos _) hlo)
  have hge : 32 * t ≤ m.log2 := (Nat.le_log2 hm).2 hlo
  have hlt : m.log2 < 32 * (t + 1) := (Nat.log2_lt hm).2 hhi
  rw [topOf, if_neg hm, show m.log2 / 32 = t by omega]

theorem topOf_longValue (s : State) : topOf (longValue s) = if s.arg1 = 0 then 0 else 1 := by
  have h0 := s.arg0.isLt
  have h1 := s.arg1.isLt
  split
  · next hzero =>
    have hlong : longValue s = s.arg0.toNat := by simp [longValue, hzero]
    by_cases harg0 : s.arg0.toNat = 0
    · rw [hlong, harg0, topOf, if_pos rfl]
    · exact topOf_eq_ofNat (t := 0) (by omega) (by omega)
  · next hne =>
    have hpos : s.arg1.toNat ≠ 0 := fun h => hne (BitVec.eq_of_toNat_eq h)
    unfold longValue
    exact topOf_eq_ofNat (t := 1) (by omega) (by omega)

/-- Word 0 of the 64-bit value is `ARG0`, word 1 is `ARG1`. -/
theorem ofNat_longValue_shiftRight (s : State) :
    BitVec.ofNat 32 (longValue s >>> (32 * 0)) = s.arg0 ∧ BitVec.ofNat 32 (longValue s >>> (32 * 1)) = s.arg1 := by
  have h0 := s.arg0.isLt
  have h1 := s.arg1.isLt
  unfold longValue
  constructor <;> refine BitVec.eq_of_toNat_eq ?_ <;> rw [BitVec.toNat_ofNat, Nat.shiftRight_eq_div_pow] <;> omega

/-- LDU64's sign makes no difference to the magnitude. -/
theorem natAbs_signed_longValue (s : State) (neg : Bool) :
    (if neg then -(longValue s : Int) else longValue s).natAbs = longValue s := by cases neg <;> simp

/-- Settles O9: LDU64's result is the signed 64-bit value, and the words and `top` are those of its canonical image. -/
theorem lduLoadsTheSignedValue : Obligations.LduLoadsTheSignedValue := by
  intro d neg s hwf
  obtain ⟨t, ht, hwrote⟩ := exec_wrote (i := .ldu64 d neg) (s := s) (List.cons_ne_nil d []) hwf rfl
  have himage := reg_exec_of_dests_singleton (i := .ldu64 d neg) rfl hwf rfl ht
  have hvalue : (if neg then -1 else 1) * (longValue s : Int) = if neg then -(longValue s : Int) else longValue s := by
    cases neg <;> simp
  obtain ⟨hword0, hword1⟩ := ofNat_longValue_shiftRight s
  refine ⟨t, ht, ?_, ?_, ?_, ?_⟩
  · change Wrote s t [(d, (if neg then -1 else 1) * (longValue s : Int))]
    rw [hvalue]
    exact hwrote
  · rw [himage, word_pack _ 0 (by decide), natAbs_signed_longValue, hword0]
  · rw [himage, word_pack _ 1 (by decide), natAbs_signed_longValue, hword1]
  · rw [himage, top_pack, natAbs_signed_longValue, topOf_longValue]

/-! ### fromWords (R103, R120) -/

/-- The last of two writes to a register counts. -/
theorem setReg_setReg (s : State) (k : Reg) (r r' : BigNum) : (s.setReg k r).setReg k r' = s.setReg k r' := by
  by_cases hk : 2 ≤ k.val <;> simp [State.setReg, hk]

/-- Writing a general register's own image changes nothing. -/
theorem setReg_reg (s : State) {k : Reg} (hk : 2 ≤ k.val) : s.setReg k (s.reg k) = s := by
  simp [State.setReg, State.reg, hk, show k.val ≠ 0 by omega, show k.val ≠ 1 by omega]

/-- The words `ws` written over a register's from word `n` on, one after the other. -/
def BigNum.setWords (r : BigNum) (n : Nat) : List Word → BigNum
  | [] => r
  | v :: vs => (r.setWord n v).setWords (n + 1) vs

theorem take_setWord {r : BigNum} {n : Nat} (hn : n < Config.cap) (v : Word) :
    (r.setWord n v).w.take (n + 1) = r.w.take n ++ [v] := by
  rw [BigNum.setWord, List.take_add_one, List.take_set_of_le le_rfl, List.getElem?_set_self (by rwa [r.len])]
  rfl

/-- Up to the last word written a register holds its old words below `n` and then the new ones. -/
theorem take_setWords (r : BigNum) (n : Nat) (ws : List Word) (h : n + ws.length ≤ Config.cap) :
    (r.setWords n ws).w.take (n + ws.length) = r.w.take n ++ ws := by
  induction ws generalizing r n with
  | nil => simp [BigNum.setWords]
  | cons v vs ih =>
    rw [List.length_cons] at h ⊢
    rw [BigNum.setWords, show n + (vs.length + 1) = n + 1 + vs.length by omega, ih _ _ (by omega), take_setWord (by omega),
      List.append_assoc, List.singleton_append]

/-- A `META` word of a sign and a word index sets `sg` and `top` to them (R42). -/
theorem setMeta_ofNat (r : BigNum) (neg : Bool) {t : Nat} (ht : t < Config.cap) :
    setMeta r (BitVec.ofNat 32 (neg.toNat * 2 ^ 31 + t)) = { r with top := BitVec.ofNat Config.idxW t, sg := neg } := by
  simp only [Config.cap] at ht
  have hneg := neg.toNat_le
  have htop : BitVec.ofNat Config.idxW (BitVec.ofNat 32 (neg.toNat * 2 ^ 31 + t)).toNat = BitVec.ofNat Config.idxW t := by
    refine BitVec.eq_of_toNat_eq ?_
    simp only [BitVec.toNat_ofNat, Config.idxW]
    omega
  have hsg : (BitVec.ofNat 32 (neg.toNat * 2 ^ 31 + t)).getLsbD 31 = neg := by
    rw [BitVec.getLsbD_ofNat, Nat.mul_comm, Nat.testBit_two_pow_mul_add _ (by omega)]
    cases neg <;> rfl
  rw [setMeta, htop, hsg]

section IdleHost
variable {s : State} {k : Reg} (hrst : s.rst = false) (hidle : s.busy = false) (hk : 2 ≤ k.val)
include hrst hidle hk

theorem takeTurn_writeWord {n : Nat} (hn : n < Config.cap) (v : Word) :
    takeTurn (writeAt (wordAddr k n) v) s = .next (s.setReg k ((s.reg k).setWord n v)) := by
  simp [takeTurn, writeAt, hostAccess, hostWrite, hrst, locate_wordAddr k n hn, writeLocation, writeBigNum_general_idle hk hidle]

theorem takeTurn_writeMeta (v : Word) : takeTurn (writeAt (metaAddr k) v) s = .next (s.setReg k (setMeta (s.reg k) v)) := by
  simp [takeTurn, writeAt, hostAccess, hostWrite, hrst, locate_metaAddr, writeLocation, writeBigNum_general_idle hk hidle]

/-- The word writes of LOADW are one write to the register. -/
theorem runTurns_writeWords (ws : List Word) (n : Nat) (hn : n + ws.length ≤ Config.cap) (rest : List Turn) :
    runTurns ((ws.zipIdx n).map (fun p => writeAt (wordAddr k p.2) p.1) ++ rest) s =
      runTurns rest (s.setReg k ((s.reg k).setWords n ws)) := by
  induction ws generalizing s n with
  | nil => rw [BigNum.setWords, setReg_reg s hk]; rfl
  | cons v vs ih =>
    rw [List.length_cons] at hn
    rw [List.zipIdx_cons, List.map_cons, List.cons_append, runTurns, takeTurn_writeWord hrst hidle hk (by omega)]
    dsimp only
    rw [ih (by simpa using hrst) (by simpa using hidle) (n + 1) (by omega), reg_setReg_self _ _ _ hk, setReg_setReg,
      BigNum.setWords]

/-- LOADW is one write to the register: the words, and the `top` and sign that the `META` write gives it. -/
theorem runTurns_loadW (neg : Bool) {ws : List Word} (hne : ws ≠ []) (hlen : ws.length ≤ Config.cap) :
    runTurns (loadW k neg ws) s = .next (s.setReg k
      { (s.reg k).setWords 0 ws with top := BitVec.ofNat Config.idxW (ws.length - 1), sg := neg }) := by
  have hpos := List.length_pos_of_ne_nil hne
  rw [loadW, runTurns_writeWords hrst hidle hk ws 0 (by omega), runTurns,
    takeTurn_writeMeta (by simpa using hrst) (by simpa using hidle) hk, reg_setReg_self _ _ _ hk, setReg_setReg,
    setMeta_ofNat _ _ (by omega)]
  rfl

end IdleHost

/-- Settles O51: the magnitude reads exactly the words written, since `top` is the index of the last. -/
theorem loadedWordsAreTheMagnitude : Obligations.LoadedWordsAreTheMagnitude := by
  intro s k neg ws hrst hidle hk hne hlen
  have hpos := List.length_pos_of_ne_nil hne
  have htop : (BitVec.ofNat Config.idxW (ws.length - 1)).toNat + 1 = ws.length := by
    simp only [BitVec.toNat_ofNat, Config.idxW, Config.cap] at *
    omega
  have hwords : ((s.reg k).setWords 0 ws).w.take ws.length = ws := by simpa using take_setWords (s.reg k) 0 ws (by omega)
  refine ⟨_, runTurns_loadW hrst hidle hk neg hne hlen, ?_, ?_, fun j hj => reg_setReg_ne _ _ _ _ hj, ?_, turns_setReg _ _ _⟩
  · rw [reg_setReg_self _ _ _ hk, BigNum.mag, htop, hwords]
  · rw [reg_setReg_self _ _ _ hk]
  · simp [ControlUnchanged]

end Sys2Proof.Machine

/-! Proofs of the family "comparison": CMPM (O10), EQMU (O11) and the source's word comparison (O54). The last rests on two facts
about the number a register's low words write: trimming to `etop` keeps it, and of two such numbers the top word decides first. -/

namespace Sys2Proof.Machine

/-! ### The comparator's flags (R140, R141) -/

/-- Settles O10: CMPM's completion writes the flags of the magnitudes' order. -/
theorem cmpmOrdersMagnitudes : Obligations.CmpmOrdersMagnitudes := fun a b s =>
  commitFlags_wrote (compareFlags (magOf s a) (magOf s b)) s

/-- Settles O11: EQMU's word test is equality of the magnitudes, and its completion writes the flag. -/
theorem eqmuTestsMagnitudeEquality : Obligations.EqmuTestsMagnitudeEquality := by
  intro a b s
  rw [exec_eqmu, equalWords_eq_decide]
  exact commitFlags_wrote (equalFlags (decide (magOf s a = magOf s b))) s

/-! ### The number a register's low words write (R9, R20) -/

/-- The number that the lowest `n` words of a register write; the magnitude is the one up to `top`. -/
def BigNum.lowMag (r : BigNum) (n : Nat) : Nat := wordsValue (r.w.take n)

theorem mag_eq_lowMag (r : BigNum) : r.mag = r.lowMag (r.top.toNat + 1) := rfl

@[simp] theorem lowMag_zero (r : BigNum) : r.lowMag 0 = 0 := by simp [BigNum.lowMag]

theorem wordsValue_append_singleton (l : List Word) (x : Word) :
    wordsValue (l ++ [x]) = wordsValue l + 2 ^ (32 * l.length) * x.toNat := by
  induction l with
  | nil => simp
  | cons y ys ih =>
    rw [List.cons_append, wordsValue_cons, wordsValue_cons, ih, List.length_cons,
      show 32 * (ys.length + 1) = 32 + 32 * ys.length by omega, Nat.pow_add]
    ring

/-- One more word, inside the capacity or beyond it, where words are 0. -/
theorem lowMag_succ (r : BigNum) (n : Nat) : r.lowMag (n + 1) = r.lowMag n + 2 ^ (32 * n) * (r.word n).toNat := by
  by_cases hn : n < r.w.length
  · have htake : r.w.take (n + 1) = r.w.take n ++ [r.word n] := by simp [BigNum.word, hn]
    rw [BigNum.lowMag, htake, wordsValue_append_singleton, List.length_take_of_le hn.le, BigNum.lowMag]
  · have hlen : r.w.length ≤ n := not_lt.1 hn
    simp [BigNum.lowMag, BigNum.word, hlen, List.take_of_length_le, Nat.le_succ_of_le]

theorem lowMag_lt (r : BigNum) (n : Nat) : r.lowMag n < 2 ^ (32 * n) :=
  (wordsValue_lt _).trans_le (Nat.pow_le_pow_right (by decide) (Nat.mul_le_mul_left 32 (List.length_take_le n r.w)))

/-! ### Trimming leading zero words (R9, R24) -/

theorem lowMag_topNonzeroFrom (r : BigNum) (i : Nat) : r.lowMag (r.topNonzeroFrom i + 1) = r.lowMag (i + 1) := by
  induction i with
  | zero => rfl
  | succ i ih =>
    rw [BigNum.topNonzeroFrom]
    split
    · next hzero => simp [ih, lowMag_succ r (i + 1), hzero]
    · rfl

theorem word_topNonzeroFrom_ne_zero (r : BigNum) {i : Nat} (h : 0 < r.topNonzeroFrom i) : r.word (r.topNonzeroFrom i) ≠ 0 := by
  induction i with
  | zero => exact absurd h (lt_irrefl 0)
  | succ i ih =>
    rw [BigNum.topNonzeroFrom] at h ⊢
    split
    · next hzero => exact ih (by simpa [hzero] using h)
    · next hne => exact hne

/-- The magnitude is written by the words up to `etop` alone. -/
theorem mag_eq_lowMag_etop (r : BigNum) : r.mag = r.lowMag (r.etop + 1) :=
  (mag_eq_lowMag r).trans (lowMag_topNonzeroFrom r r.top.toNat).symm

theorem mag_lt_of_etop_lt {r : BigNum} {n : Nat} (h : r.etop < n) : r.mag < 2 ^ (32 * n) := by
  rw [mag_eq_lowMag_etop]
  exact (lowMag_lt r _).trans_le (Nat.pow_le_pow_right (by decide) (by omega))

theorem two_pow_etop_le_mag {r : BigNum} (h : 0 < r.etop) : 2 ^ (32 * r.etop) ≤ r.mag := by
  have hword : 0 < (r.word r.etop).toNat :=
    Nat.pos_of_ne_zero fun h0 => word_topNonzeroFrom_ne_zero r h (BitVec.eq_of_toNat_eq h0)
  rw [mag_eq_lowMag_etop, lowMag_succ]
  exact (Nat.le_mul_of_pos_right _ hword).trans (Nat.le_add_left _ _)

/-- The longer of two trimmed magnitudes is the larger. -/
theorem mag_lt_mag_of_etop_lt {a b : BigNum} (h : a.etop < b.etop) : a.mag < b.mag :=
  (mag_lt_of_etop_lt h).trans_le (two_pow_etop_le_mag (Nat.zero_lt_of_lt h))

/-! ### The word loop (R140) -/

theorem lowMag_succ_lt {a b : BigNum} {n : Nat} (h : (a.word n).toNat < (b.word n).toNat) : a.lowMag (n + 1) < b.lowMag (n + 1) :=
  calc a.lowMag (n + 1) = a.lowMag n + 2 ^ (32 * n) * (a.word n).toNat := lowMag_succ a n
    _ < 2 ^ (32 * n) * ((a.word n).toNat + 1) := by have := lowMag_lt a n; rw [Nat.mul_succ]; omega
    _ ≤ 2 ^ (32 * n) * (b.word n).toNat := Nat.mul_le_mul_left _ h
    _ ≤ b.lowMag (n + 1) := by rw [lowMag_succ b n]; exact Nat.le_add_left _ _

/-- Where the top words agree, the words below decide. -/
theorem compare_lowMag_succ_of_word_eq {a b : BigNum} {n : Nat} (h : (a.word n).toNat = (b.word n).toNat) :
    compare (a.lowMag (n + 1)) (b.lowMag (n + 1)) = compare (a.lowMag n) (b.lowMag n) := by
  simp [lowMag_succ, h, Nat.compare_eq_ite_lt]

theorem compareWordsFrom_eq_compare (a b : BigNum) (i : Nat) :
    compareWordsFrom a b i = compare (a.lowMag (i + 1)) (b.lowMag (i + 1)) := by
  induction i with
  | zero => simp [compareWordsFrom, lowMag_succ]
  | succ i ih =>
    rw [compareWordsFrom]
    split
    · next hgt => exact (Nat.compare_eq_gt.2 (lowMag_succ_lt hgt)).symm
    · next hngt =>
      split
      · next hlt => exact (Nat.compare_eq_lt.2 (lowMag_succ_lt hlt)).symm
      · next hnlt => rw [ih, compare_lowMag_succ_of_word_eq (n := i + 1) (by omega)]

/-- Settles O54: the longer trimmed operand is the larger, and of two equally long ones the word loop finds the larger. -/
theorem wordComparisonIsMagnitudeOrder : Obligations.WordComparisonIsMagnitudeOrder := by
  intro a b
  rw [compareByWords]
  split
  · next hgt => exact (Nat.compare_eq_gt.2 (mag_lt_mag_of_etop_lt hgt)).symm
  · next hngt =>
    split
    · next hlt => exact (Nat.compare_eq_lt.2 (mag_lt_mag_of_etop_lt hlt)).symm
    · next hnlt =>
      have hetop : a.etop = b.etop := by omega
      rw [compareWordsFrom_eq_compare, mag_eq_lowMag_etop a, mag_eq_lowMag_etop b, hetop]

end Sys2Proof.Machine

/-! Proofs of the family "bit_logic": FLIPB (O12), SHW (O13), SHB (O14), BOR, BAND and BXOR (O15), and the two laws of undoing a
shift (O52) and a flip (O53). First what a flip and a shift answer; SHB's `top` then rests on the index of the
most significant bit, of a magnitude and of its shift. -/

namespace Sys2Proof.Machine

/-! ### What a flip and a shift answer (R151, R152, R153) -/

theorem flipBit_of_lt {i : Nat} (hi : i < 32 * Config.cap) (sg : Int) (m : Nat) :
    flipBit sg m i = .ok (sg * ((m ^^^ 2 ^ i : Nat) : Int)) := if_neg (by omega)

theorem flipBit_ok {sg v : Int} {m i : Nat} (h : flipBit sg m i = .ok v) :
    v = sg * ((m ^^^ 2 ^ i : Nat) : Int) ∧ i < 32 * Config.cap := by
  unfold flipBit at h
  split at h
  · cases h
  · exact ⟨(Except.ok.inj h).symm, by omega⟩

/-- An amount of zero or more inside the capacity is a checked multiplication. -/
theorem shiftBy_of_nonneg {unit : Nat} {n : Int} (hn : 0 ≤ n) (hin : (unit : Int) * n < (32 * Config.cap : Nat)) (sg : Int) (m : Nat) :
    shiftBy unit sg m n = checkCap (sg * ((m * 2 ^ (unit * n.toNat) : Nat) : Int)) := by
  rw [shiftBy, if_neg (not_le.2 hin), if_pos hn]

/-- A negative amount is a floor division. -/
theorem shiftBy_of_neg {n : Int} (hn : n < 0) (unit : Nat) (sg : Int) (m : Nat) :
    shiftBy unit sg m n = .ok (sg * ((m / 2 ^ (unit * (-n).toNat) : Nat) : Int)) := by
  have hle : (unit : Int) * n ≤ 0 := mul_nonpos_of_nonneg_of_nonpos (Int.natCast_nonneg unit) hn.le
  rw [shiftBy, if_neg (not_le.2 (hle.trans_lt (by decide))), if_neg (not_le.2 hn), Nat.shiftRight_eq_div_pow]

/-- A shift up of a register's magnitude that fits answers the product. -/
theorem shiftBy_sgn_of_fits {unit : Nat} {n : Int} (r : BigNum) (hn : 0 ≤ n) (hin : (unit : Int) * n < (32 * Config.cap : Nat))
    (hfit : r.mag * 2 ^ (unit * n.toNat) < Config.maxMag) :
    shiftBy unit r.sgn r.mag n = .ok (r.sgn * ((r.mag * 2 ^ (unit * n.toNat) : Nat) : Int)) := by
  rw [shiftBy_of_nonneg hn hin]
  exact checkCap_of_lt ((natAbs_sgn_mul r _).trans_lt hfit)

theorem shiftBy_zero (unit : Nat) (r : BigNum) : shiftBy unit r.sgn r.mag 0 = .ok r.val := by
  rw [shiftBy_of_nonneg le_rfl (by simp [Config.cap]), Int.toNat_zero, Nat.mul_zero, Nat.pow_zero, Nat.mul_one]
  exact checkCap_of_lt (val_natAbs_lt r)

/-- A shift up that raises no error answers the product, and the product fits. -/
theorem shiftBy_nonneg_ok {unit m : Nat} {sg n v : Int} (hn : 0 ≤ n) (h : shiftBy unit sg m n = .ok v) :
    v = sg * ((m * 2 ^ (unit * n.toNat) : Nat) : Int) ∧ v.natAbs < Config.maxMag := by
  by_cases hin : (unit : Int) * n < (32 * Config.cap : Nat)
  · rw [shiftBy_of_nonneg hn hin] at h
    obtain ⟨rfl, hlt⟩ := checkCap_ok h
    exact ⟨rfl, hlt⟩
  · rw [shiftBy, if_pos (not_lt.1 hin)] at h
    cases h

/-! ### FLIPB and SHW (R151, R152) -/

/-- Settles O12: an index inside the capacity is answered, and the answer is FLIPB's result. -/
theorem flipbTogglesOneBit : Obligations.FlipbTogglesOneBit := fun d a s hwf hi =>
  exec_wrote (i := .flipb d a) (List.cons_ne_nil d []) hwf (congrArg (Except.map ([·])) (flipBit_of_lt hi (sgnOf s a) (magOf s a)))

/-- Settles O13: up, the amount is below 32·`CAP` bits and the product fits; down, the shift is a floor division. -/
theorem shwShiftsWholeWords : Obligations.ShwShiftsWholeWords := by
  intro d a s hwf
  refine ⟨fun hn hcap hfit => ?_, fun hn => ?_⟩
  · have hin : ((32 : Nat) : Int) * s.arg0.toInt < (32 * Config.cap : Nat) := by omega
    exact exec_wrote (i := .shw d a) (List.cons_ne_nil d []) hwf
      (congrArg (Except.map ([·])) (shiftBy_sgn_of_fits (s.reg a) hn hin hfit))
  · exact exec_wrote (i := .shw d a) (List.cons_ne_nil d []) hwf
      (congrArg (Except.map ([·])) (shiftBy_of_neg hn 32 (sgnOf s a) (magOf s a)))

/-! ### The most significant bit of a shifted magnitude (R10, R153) -/

/-- Under `a` low bits the most significant bit is the upper part's, `a` places further up. -/
theorem log2_add_two_pow_mul {a low hi : Nat} (hlow : low < 2 ^ a) (hhi : hi ≠ 0) : (low + 2 ^ a * hi).log2 = a + hi.log2 := by
  have hne : low + 2 ^ a * hi ≠ 0 := by
    have := Nat.mul_pos (Nat.two_pow_pos a) (Nat.pos_of_ne_zero hhi)
    omega
  rw [Nat.log2_eq_iff hne]
  constructor
  · calc 2 ^ (a + hi.log2) = 2 ^ a * 2 ^ hi.log2 := Nat.pow_add ..
      _ ≤ 2 ^ a * hi := Nat.mul_le_mul_left _ (Nat.log2_self_le hhi)
      _ ≤ low + 2 ^ a * hi := Nat.le_add_left ..
  · calc low + 2 ^ a * hi < 2 ^ a * (hi + 1) := by rw [Nat.mul_succ]; omega
      _ ≤ 2 ^ a * 2 ^ (hi.log2 + 1) := Nat.mul_le_mul_left _ Nat.lt_log2_self
      _ = 2 ^ (a + hi.log2 + 1) := (Nat.pow_add ..).symm

theorem word_etop_ne_zero {r : BigNum} (h : r.mag ≠ 0) : (r.word r.etop).toNat ≠ 0 := by
  intro hword
  have hzero : r.etop = 0 :=
    Nat.eq_zero_of_not_pos fun hpos => word_topNonzeroFrom_ne_zero r hpos (BitVec.eq_of_toNat_eq hword)
  refine h ?_
  rw [mag_eq_lowMag_etop, lowMag_succ, hword, hzero, lowMag_zero, Nat.mul_zero]

/-- The most significant bit of a magnitude is that of its top live word. -/
theorem log2_mag {r : BigNum} (h : r.mag ≠ 0) : r.mag.log2 = 32 * r.etop + (r.word r.etop).toNat.log2 := by
  rw [mag_eq_lowMag_etop, lowMag_succ]
  exact log2_add_two_pow_mul (lowMag_lt r r.etop) (word_etop_ne_zero h)

/-- The carry-word decision finds the word of the shifted magnitude's most significant bit: a shift of 32·q + r bits moves bit b of
the top live word into the next word exactly when b + r ≥ 32. -/
theorem log2_shifted_div {r : BigNum} (h : r.mag ≠ 0) (n : Nat) : (r.mag * 2 ^ n).log2 / 32 = shiftedTop r n := by
  have hword := word_etop_ne_zero h
  have hlog : (r.mag * 2 ^ n).log2 = n + (32 * r.etop + (r.word r.etop).toNat.log2) := by
    rw [← log2_mag h, ← log2_add_two_pow_mul (Nat.two_pow_pos n) h, Nat.zero_add, Nat.mul_comm]
  have hlt : (r.word r.etop).toNat.log2 < 32 := (Nat.log2_lt hword).2 (r.word r.etop).isLt
  simp only [hlog, shiftedTop, ← Nat.le_log2 hword]
  split <;> omega

/-! ### SHB (R153) -/

/-- Settles O14: as SHW, a bit a place; `top` is the word of the most significant bit of the canonical image. -/
theorem shbShiftsBits : Obligations.ShbShiftsBits := by
  intro d a s hwf
  refine ⟨fun hn hcap hfit => ?_, fun hn => ?_⟩
  · have hvs : commandResult s (.shb d a) = .ok [sgnOf s a * ((magOf s a * 2 ^ s.arg0.toInt.toNat : Nat) : Int)] := by
      have hshift := shiftBy_sgn_of_fits (unit := 1) (s.reg a) hn (by omega) (by rwa [Nat.one_mul])
      rw [Nat.one_mul] at hshift
      exact congrArg (Except.map ([·])) hshift
    obtain ⟨t, ht, hwrote⟩ := exec_wrote (i := .shb d a) (List.cons_ne_nil d []) hwf hvs
    refine ⟨t, ht, hwrote, fun hne => ?_⟩
    rw [reg_exec_of_dests_singleton (i := .shb d a) rfl hwf hvs ht, top_pack, natAbs_sgnOf_mul, topOf_toNat hfit]
    exact log2_shifted_div hne _
  · have hshift := shiftBy_of_neg hn 1 (sgnOf s a) (magOf s a)
    rw [Nat.one_mul] at hshift
    exact exec_wrote (i := .shb d a) (List.cons_ne_nil d []) hwf (congrArg (Except.map ([·])) hshift)

/-! ### BOR, BAND and BXOR (R154, R155, R156) -/

theorem wf_of_dests_singleton {i : Instr} {d : Reg} (hi : i.dests = [d]) (hd : 2 ≤ d.val) : i.wf = true := by
  rw [← destsLegal_eq_wf, hi, destsLegal_iff]
  exact ⟨by simpa using hd, List.nodup_singleton d⟩

/-- Settles O15: the three raise no error, and a general destination is legal. -/
theorem logicActsOnMagnitudes : Obligations.LogicActsOnMagnitudes := fun d a b _ hd =>
  ⟨exec_wrote (i := .bor d a b) (List.cons_ne_nil d []) (wf_of_dests_singleton rfl hd) rfl,
    exec_wrote (i := .band d a b) (List.cons_ne_nil d []) (wf_of_dests_singleton rfl hd) rfl,
    exec_wrote (i := .bxor d a b) (List.cons_ne_nil d []) (wf_of_dests_singleton rfl hd) rfl⟩

/-! ### Undoing a shift and a flip (R153, R158) -/

/-- The canonical image keeps the sign of a signed magnitude that is not zero. -/
theorem sgn_pack_sgn_mul (r : BigNum) {m : Nat} (h : m ≠ 0) : (pack (r.sgn * (m : Int))).sgn = r.sgn := by
  have hneg : decide (r.sgn * (m : Int) < 0) = r.sg := by
    unfold BigNum.sgn
    cases r.sg with
    | false => simp
    | true => simp; omega
  rw [BigNum.sgn, sg_pack, hneg, BigNum.sgn]

/-- Settles O52: the magnitude comes back by dividing out the power of two, and the sign is kept unless the value is zero. -/
theorem shiftBackRestoresTheValue : Obligations.ShiftBackRestoresTheValue := by
  intro r n v hn h
  obtain ⟨hv, hlt⟩ := shiftBy_nonneg_ok hn h
  obtain rfl | hpos := hn.eq_or_lt
  · obtain rfl : r.val = v := Except.ok.inj ((shiftBy_zero 1 r).symm.trans h)
    exact (shiftBy_zero 1 (pack r.val)).trans (congrArg Except.ok (val_pack hlt))
  · have hmag : (pack v).mag / 2 ^ (1 * n.toNat) = r.mag := by
      rw [mag_pack hlt, hv, natAbs_sgn_mul, Nat.mul_div_cancel _ (Nat.two_pow_pos _)]
    rw [shiftBits, shiftBy_of_neg (by omega), Int.neg_neg, hmag, BigNum.val]
    by_cases h0 : r.mag = 0
    · simp [h0]
    · rw [hv, sgn_pack_sgn_mul r (Nat.mul_ne_zero h0 (Nat.two_pow_pos _).ne')]

/-- Settles O53: the second XOR undoes the first; the sign is lost only when the first flip leaves zero,
which is so for the magnitude 2^i alone, and there a sign of +1 is zero's own. -/
theorem flipTwiceRestores : Obligations.FlipTwiceRestores := by
  intro r i v w hv hw
  obtain ⟨rfl, hi⟩ := flipBit_ok hv
  have hlt : (r.sgn * ((r.mag ^^^ 2 ^ i : Nat) : Int)).natAbs < Config.maxMag := by
    rw [natAbs_sgn_mul]
    exact Nat.xor_lt_two_pow (mag_lt_maxMag r) (Nat.pow_lt_pow_right (by decide) hi)
  have hmag : (pack (r.sgn * ((r.mag ^^^ 2 ^ i : Nat) : Int))).mag = r.mag ^^^ 2 ^ i := (mag_pack hlt).trans (natAbs_sgn_mul r _)
  obtain ⟨rfl, _⟩ := flipBit_ok hw
  rw [hmag, Nat.xor_xor_cancel_right]
  refine ⟨natAbs_sgn_mul _ _, fun hne => ?_⟩
  by_cases h0 : r.mag ^^^ 2 ^ i = 0
  · have hpow : r.mag = 2 ^ i := Nat.xor_eq_zero_iff.1 h0
    have hsgn : r.sgn = 1 := by
      cases hsg : r.sg with
      | false => simp [BigNum.sgn, hsg]
      | true => exact absurd (by simp [BigNum.val, BigNum.sgn, hsg, hpow]) hne
    rw [h0, BigNum.val, hsgn]
    rfl
  · rw [sgn_pack_sgn_mul r h0, BigNum.val]

end Sys2Proof.Machine

/-! Proofs of the family "unsigned_core": ADDM and MULM (O16), SUBM (O17), DIVM (O18), and the source's algorithms against the
integer functions: ripple-carry (O55), borrow subtraction (O56), schoolbook (O57) and restoring division (O58). The word loops rest
on one rule each, for any list of word pairs; the divider's loop on what one pass does. -/

namespace Sys2Proof.Machine

/-! ### ADDM, MULM, SUBM and DIVM (R170 to R173) -/

theorem addMag_of_lt {a b : Nat} (h : a + b < Config.maxMag) : addMag a b = .ok ((a + b : Nat) : Int) :=
  checkCap_of_lt (by rwa [Int.natAbs_natCast])

theorem mulMag_of_lt {a b : Nat} (h : a * b < Config.maxMag) : mulMag a b = .ok ((a * b : Nat) : Int) :=
  checkCap_of_lt (by rwa [Int.natAbs_natCast])

theorem divMag_of_ne {a b : Nat} (h : b ≠ 0) : divMag a b = .ok (a / b, a % b) := if_neg h

/-- Settles O16: a sum or a product below `MAXMAG` passes the check, and a general destination is legal. -/
theorem unsignedSumAndProduct : Obligations.UnsignedSumAndProduct := by
  intro d a b s hd
  refine ⟨fun hlt => ?_, fun hlt => ?_⟩
  · have hsum : commandResult s (.addm d a b) = .ok [((magOf s a + magOf s b : Nat) : Int)] := by
      rw [commandResult, addMag_of_lt hlt, Except.map]
    exact exec_wrote (i := .addm d a b) (List.cons_ne_nil d []) (wf_of_dests_singleton rfl hd) hsum
  · have hproduct : commandResult s (.mulm d a b) = .ok [((magOf s a * magOf s b : Nat) : Int)] := by
      rw [commandResult, mulMag_of_lt hlt, Except.map]
    exact exec_wrote (i := .mulm d a b) (List.cons_ne_nil d []) (wf_of_dests_singleton rfl hd) hproduct

/-- Settles O17: SUBM raises no error, and its result is the difference of integers. -/
theorem submWritesTheSignedDifference : Obligations.SubmWritesTheSignedDifference := fun d a b _ hwf =>
  exec_wrote (i := .subm d a b) (List.cons_ne_nil d []) hwf rfl

/-- Settles O18: with a divisor that is not zero DIVM answers its two results. -/
theorem divmFloorQuotientAndRemainder : Obligations.DivmFloorQuotientAndRemainder := fun q r a b s hwf hb =>
  exec_wrote (i := .divm q r a b) (List.cons_ne_nil q [r]) hwf (congrArg (Except.map _) (divMag_of_ne (a := magOf s a) hb))

/-! ### The words of two operands side by side (R141, R170) -/

theorem wordsValue_append (l l' : List Word) : wordsValue (l ++ l') = wordsValue l + 2 ^ (32 * l.length) * wordsValue l' := by
  induction l with
  | nil => simp
  | cons x xs ih =>
    rw [List.cons_append, wordsValue_cons, wordsValue_cons, ih, List.length_cons,
      show 32 * (xs.length + 1) = 32 + 32 * xs.length by omega, Nat.pow_add]
    ring

@[simp] theorem length_liveWords (r : BigNum) (n : Nat) : (r.liveWords n).length = n := by simp [BigNum.liveWords]

theorem liveWords_add (r : BigNum) (n k : Nat) :
    r.liveWords (n + k) = r.liveWords n ++ (List.range k).map fun i => r.liveWord (n + i) := by
  simp [BigNum.liveWords, List.range_add]

/-- The live words up to the trimmed top, or beyond it, write the magnitude: what is left of it above them would be a multiple of
a power of two that it is below. -/
theorem wordsValue_liveWords_of_etop_lt {r : BigNum} {n : Nat} (h : r.etop < n) : wordsValue (r.liveWords n) = r.mag := by
  have hall := wordsValue_liveWords r (n := n + (r.top.toNat + 1)) (by omega)
  rw [liveWords_add, wordsValue_append, length_liveWords] at hall
  have hlow : wordsValue (r.liveWords n) < 2 ^ (32 * n) := by simpa using wordsValue_lt (r.liveWords n)
  rw [← Nat.mod_eq_of_lt hlow, ← Nat.mod_eq_of_lt (mag_lt_of_etop_lt h), ← hall, Nat.add_mul_mod_self_left]

@[simp] theorem length_wordPairs (a b : BigNum) (t : Nat) : (wordPairs a b t).length = t + 1 := by simp [wordPairs]

theorem wordsValue_map_fst_wordPairs {a : BigNum} {t : Nat} (h : a.etop ≤ t) (b : BigNum) :
    wordsValue ((wordPairs a b t).map (·.1)) = a.mag := by
  rw [← wordsValue_liveWords_of_etop_lt (Nat.lt_succ_of_le h)]
  simp [wordPairs, BigNum.liveWords, Function.comp_def]

theorem wordsValue_map_snd_wordPairs {b : BigNum} {t : Nat} (h : b.etop ≤ t) (a : BigNum) :
    wordsValue ((wordPairs a b t).map (·.2)) = b.mag := by
  rw [← wordsValue_liveWords_of_etop_lt (Nat.lt_succ_of_le h)]
  simp [wordPairs, BigNum.liveWords, Function.comp_def]

/-! ### Ripple-carry addition and borrow subtraction (R170, R171) -/

theorem rippleAdd_carry_le_one {l : List (Word × Word)} {c : Nat} (hc : c ≤ 1) : (rippleAdd l c).2 ≤ 1 := by
  induction l generalizing c with
  | nil => exact hc
  | cons p rest ih =>
    have hx := p.1.isLt
    have hy := p.2.isLt
    exact ih (by omega)

/-- Nothing is lost: the words out with the carry out write the two operands and the carry in. -/
theorem rippleAdd_value (l : List (Word × Word)) (c : Nat) :
    wordsValue (rippleAdd l c).1 + (rippleAdd l c).2 * 2 ^ (32 * l.length) =
      wordsValue (l.map (·.1)) + wordsValue (l.map (·.2)) + c := by
  induction l generalizing c with
  | nil => simp [rippleAdd]
  | cons p rest ih =>
    obtain ⟨x, y⟩ := p
    have hrest := ih ((x.toNat + y.toNat + c) / 2 ^ 32)
    have hword := Nat.mod_add_div (x.toNat + y.toNat + c) (2 ^ 32)
    simp only [rippleAdd, List.map_cons, wordsValue_cons, List.length_cons, BitVec.toNat_ofNat,
      show 32 * (rest.length + 1) = 32 * rest.length + 32 by omega, Nat.pow_add]
    linarith

/-- Settles O55: the word pairs up to the larger trimmed top write the two magnitudes, and the first carry is 0. -/
theorem rippleCarryAddsMagnitudes : Obligations.RippleCarryAddsMagnitudes := by
  intro a b T
  have hsum := rippleAdd_value (wordPairs a b T) 0
  rw [length_wordPairs, wordsValue_map_fst_wordPairs (le_max_left _ _), wordsValue_map_snd_wordPairs (le_max_right _ _)] at hsum
  exact ⟨hsum, rippleAdd_carry_le_one (Nat.zero_le 1)⟩

@[simp] theorem length_rippleSub (l : List (Word × Word)) (c : Nat) : (rippleSub l c).1.length = l.length := by
  induction l generalizing c with
  | nil => rfl
  | cons p rest ih => exact congrArg (· + 1) (ih _)

/-- One word of the subtraction, for a borrow in of 0 or 1: the word out and 2^32 for a borrow make up what was taken away. -/
theorem toNat_ofInt_sub (x y : Word) {c : Nat} (hc : c ≤ 1) :
    (BitVec.ofInt 32 ((x.toNat : Int) - y.toNat - c)).toNat + y.toNat + c =
      x.toNat + 2 ^ 32 * (if (x.toNat : Int) - y.toNat - c < 0 then 1 else 0) := by
  have hx := x.isLt
  have hy := y.isLt
  rw [BitVec.toNat_ofInt]
  split <;> omega

/-- Nothing is lost: the words out with what is taken away write the first operand and the borrow out. -/
theorem rippleSub_value (l : List (Word × Word)) {c : Nat} (hc : c ≤ 1) :
    wordsValue (rippleSub l c).1 + wordsValue (l.map (·.2)) + c =
      wordsValue (l.map (·.1)) + (rippleSub l c).2 * 2 ^ (32 * l.length) := by
  induction l generalizing c with
  | nil => simp [rippleSub]
  | cons p rest ih =>
    obtain ⟨x, y⟩ := p
    have hrest := ih (c := if (x.toNat : Int) - y.toNat - c < 0 then 1 else 0) (by split <;> decide)
    have hword := toNat_ofInt_sub x y hc
    simp only [rippleSub, List.map_cons, wordsValue_cons, List.length_cons,
      show 32 * (rest.length + 1) = 32 * rest.length + 32 by omega, Nat.pow_add]
    linarith

/-- Settles O56: the smaller operand's trimmed top is not above the larger's, so the pairs write both magnitudes; a borrow out
would make the words out too large for their number. -/
theorem borrowSubtractionSubtractsMagnitudes : Obligations.BorrowSubtractionSubtractsMagnitudes := by
  intro a b hle
  have hetop : b.etop ≤ a.etop := not_lt.1 fun h => absurd (mag_lt_mag_of_etop_lt h) (not_lt.2 hle)
  have hdiff := rippleSub_value (wordPairs a b a.etop) (Nat.zero_le 1)
  rw [length_wordPairs, wordsValue_map_fst_wordPairs le_rfl, wordsValue_map_snd_wordPairs hetop] at hdiff
  have hout : wordsValue (rippleSub (wordPairs a b a.etop) 0).1 < 2 ^ (32 * (a.etop + 1)) := by
    simpa using wordsValue_lt (rippleSub (wordPairs a b a.etop) 0).1
  have hborrow : (rippleSub (wordPairs a b a.etop) 0).2 = 0 := by
    refine Nat.eq_zero_of_not_pos fun hpos => ?_
    have := Nat.le_mul_of_pos_left (2 ^ (32 * (a.etop + 1))) hpos
    omega
  rw [hborrow] at hdiff
  exact ⟨by omega, hborrow⟩

/-! ### Schoolbook multiplication (R172) -/

theorem lowMag_eq_sum (r : BigNum) (n : Nat) :
    r.lowMag n = ((List.range n).map fun i => (r.word i).toNat * 2 ^ (32 * i)).sum := by
  induction n with
  | zero => exact lowMag_zero r
  | succ n ih => rw [lowMag_succ, ih, List.sum_range_succ, Nat.mul_comm (2 ^ (32 * n))]

/-- The magnitude as the sum of R9, over the trimmed words. -/
theorem mag_eq_sum (r : BigNum) : r.mag = ((List.range (r.etop + 1)).map fun i => (r.word i).toNat * 2 ^ (32 * i)).sum :=
  (mag_eq_lowMag_etop r).trans (lowMag_eq_sum r _)

/-- Settles O57: a row of partial products is the word of `a` times the magnitude of `b`, and the rows add up to the product. -/
theorem schoolbookMultipliesMagnitudes : Obligations.SchoolbookMultipliesMagnitudes := by
  intro a b
  have hrow (x : Nat) :
      ((List.range (b.etop + 1)).map fun j => x * (b.word j).toNat * 2 ^ (32 * j)).sum = x * b.mag := by
    simp only [Nat.mul_assoc, List.sum_map_mul_left, mag_eq_sum b]
  simp only [schoolbook, hrow, Nat.mul_right_comm _ b.mag, List.sum_map_mul_right, ← mag_eq_sum a]

/-! ### Restoring division (R173, R174) -/

/-- Recording quotient bit `k` by XOR adds it when no bit up to `k` is recorded yet. -/
theorem xor_two_pow_of_dvd {q k : Nat} (h : 2 ^ (k + 1) ∣ q) : q ^^^ 2 ^ k = q + 2 ^ k := by
  obtain ⟨c, rfl⟩ := h
  have hq : 2 ^ (k + 1) * c = (2 * c) <<< k := by rw [Nat.shiftLeft_eq, Nat.pow_succ]; ring
  calc 2 ^ (k + 1) * c ^^^ 2 ^ k = (2 * c) <<< k ^^^ 1 <<< k := by rw [hq, Nat.one_shiftLeft]
    _ = (2 * c ^^^ 1) <<< k := Nat.shiftLeft_xor_distrib.symm
    _ = (2 * c + 1) <<< k := by rw [Nat.xor_one_of_even (even_two_mul c)]
    _ = 2 ^ (k + 1) * c + 2 ^ k := by rw [hq, Nat.shiftLeft_eq, Nat.shiftLeft_eq, Nat.add_one_mul]

/-- The divisor, shifted so that its most significant bit meets the remainder's, is less than twice the remainder and more than half
of it. -/
theorem shifted_divisor_bounds {d rm : Nat} (hd : d ≠ 0) (hle : d ≤ rm) :
    d * 2 ^ (rm.log2 - d.log2) < 2 * rm ∧ rm < 2 * (d * 2 ^ (rm.log2 - d.log2)) := by
  have hlog : d.log2 ≤ rm.log2 := (Nat.le_log2 (by omega)).2 ((Nat.log2_self_le hd).trans hle)
  have hpow : 2 ^ d.log2 * 2 ^ (rm.log2 - d.log2) = 2 ^ rm.log2 := by rw [← Nat.pow_add, Nat.add_sub_of_le hlog]
  constructor
  · calc d * 2 ^ (rm.log2 - d.log2) < 2 ^ (d.log2 + 1) * 2 ^ (rm.log2 - d.log2) :=
        Nat.mul_lt_mul_of_pos_right Nat.lt_log2_self (Nat.two_pow_pos _)
      _ = 2 * 2 ^ rm.log2 := by rw [Nat.pow_succ', Nat.mul_assoc, hpow]
      _ ≤ 2 * rm := Nat.mul_le_mul_left 2 (Nat.log2_self_le (by omega))
  · calc rm < 2 * 2 ^ rm.log2 := by rw [← Nat.pow_succ']; exact Nat.lt_log2_self
      _ = 2 * (2 ^ d.log2 * 2 ^ (rm.log2 - d.log2)) := by rw [hpow]
      _ ≤ 2 * (d * 2 ^ (rm.log2 - d.log2)) := Nat.mul_le_mul_left 2 (Nat.mul_le_mul_right _ (Nat.log2_self_le hd))

/-- One pass, after its one-bit correction, takes the largest multiple d·2^k off the remainder and records bit k. -/
theorem restoreLoop_succ {d rm : Nat} (hd : d ≠ 0) (hle : d ≤ rm) (n qm : Nat) :
    ∃ k, d * 2 ^ k ≤ rm ∧ rm < d * 2 ^ (k + 1) ∧
      restoreLoop d (n + 1) (rm, qm) = restoreLoop d n (rm - d * 2 ^ k, qm ^^^ 2 ^ k) := by
  obtain ⟨hlow, hhigh⟩ := shifted_divisor_bounds hd hle
  have hdouble (k : Nat) : d * 2 ^ (k + 1) = 2 * (d * 2 ^ k) := by rw [Nat.pow_succ]; ring
  rw [restoreLoop, if_neg (not_lt.2 hle)]
  generalize rm.log2 - d.log2 = k at *
  dsimp only
  split
  · next hlt => exact ⟨k, hlt.le, hdouble k ▸ hhigh, rfl⟩
  · split
    · next heq => exact ⟨k, heq.ge, hdouble k ▸ hhigh, by rw [← heq, Nat.sub_self]⟩
    · next hnlt hne =>
      obtain _ | k := k
      · omega
      · rw [hdouble k] at hlow hnlt hne ⊢
        exact ⟨k, by omega, by rw [hdouble]; omega, by rw [Nat.mul_div_cancel_left _ Nat.two_pos, Nat.add_sub_cancel]⟩

/-- The loop adds the quotient to the accumulator and leaves the remainder, as long as every bit of the accumulator is above those
of the quotient still to come. -/
theorem restoreLoop_eq {d : Nat} (hd : d ≠ 0) {n rm qm j : Nat} (hfuel : rm ≤ n) (hrm : rm < d * 2 ^ j) (hqm : 2 ^ j ∣ qm) :
    restoreLoop d n (rm, qm) = (rm % d, qm + rm / d) := by
  induction n generalizing rm qm j with
  | zero =>
    obtain rfl := Nat.le_zero.1 hfuel
    simp [restoreLoop]
  | succ n ih =>
    by_cases hlt : rm < d
    · rw [restoreLoop, if_pos hlt, Nat.mod_eq_of_lt hlt, Nat.div_eq_of_lt hlt, Nat.add_zero]
    · obtain ⟨k, hle, hnext, hpass⟩ := restoreLoop_succ hd (not_lt.1 hlt) n qm
      have hkj : k < j := (Nat.pow_lt_pow_iff_right Nat.one_lt_two).1 (Nat.lt_of_mul_lt_mul_left (hle.trans_lt hrm))
      have hbit : qm ^^^ 2 ^ k = qm + 2 ^ k := xor_two_pow_of_dvd ((Nat.pow_dvd_pow 2 hkj).trans hqm)
      have hdvd : 2 ^ k ∣ qm + 2 ^ k := ((Nat.pow_dvd_pow 2 hkj.le).trans hqm).add dvd_rfl
      have hpos : 0 < d * 2 ^ k := Nat.mul_pos (Nat.pos_of_ne_zero hd) (Nat.two_pow_pos k)
      rw [Nat.pow_succ, ← Nat.mul_assoc] at hnext
      have hquot : 2 ^ k ≤ rm / d := (Nat.le_div_iff_mul_le (Nat.pos_of_ne_zero hd)).2 (by rwa [Nat.mul_comm])
      rw [hpass, hbit, ih (by omega) (by omega) hdvd, Nat.sub_mul_mod hle, Nat.sub_mul_div]
      simp only [Prod.mk.injEq, true_and]
      omega

/-- Settles O58: the accumulator starts at 0, which has no bit at all, and a pass of fuel for each unit of the dividend is enough. -/
theorem restoringDivisionIsFloorDivision : Obligations.RestoringDivisionIsFloorDivision := by
  intro a d hd
  have hlt : a < d * 2 ^ a := Nat.lt_two_pow_self.trans_le (Nat.le_mul_of_pos_left _ (Nat.pos_of_ne_zero hd))
  rw [restoringDivide, restoreLoop_eq hd le_rfl hlt (dvd_zero _), Nat.zero_add]

end Sys2Proof.Machine

/-! Proofs of the family "signed_wrapper": ADD, SUB and MUL (O19), DIV (O20), the sign-dispatch table against the integer operations
(O59), and the division identity with MOD's result (O60). DIV's results in signs and magnitudes are proved once, for any two register
images. -/

namespace Sys2Proof.Machine

/-! ### ADD, SUB and MUL (R191 to R193) -/

theorem addInt_of_lt {x y : Int} (h : (x + y).natAbs < Config.maxMag) : addInt x y = .ok (x + y) := checkCap_of_lt h

theorem subInt_of_lt {x y : Int} (h : (x - y).natAbs < Config.maxMag) : subInt x y = .ok (x - y) := checkCap_of_lt h

theorem mulInt_of_lt {x y : Int} (h : (x * y).natAbs < Config.maxMag) : mulInt x y = .ok (x * y) := checkCap_of_lt h

/-- Settles O19: a sum, difference or product below `MAXMAG` passes the check, and a general destination is legal. -/
theorem signedSumDifferenceProduct : Obligations.SignedSumDifferenceProduct := by
  intro d a b s hd
  refine ⟨fun hfit => ?_, fun hfit => ?_, fun hfit => ?_⟩
  · have hsum : commandResult s (.add d a b) = .ok [valOf s a + valOf s b] := by
      rw [commandResult, addInt_of_lt hfit, Except.map]
    exact exec_wrote (i := .add d a b) (List.cons_ne_nil d []) (wf_of_dests_singleton rfl hd) hsum
  · have hdifference : commandResult s (.sub d a b) = .ok [valOf s a - valOf s b] := by
      rw [commandResult, subInt_of_lt hfit, Except.map]
    exact exec_wrote (i := .sub d a b) (List.cons_ne_nil d []) (wf_of_dests_singleton rfl hd) hdifference
  · have hproduct : commandResult s (.mul d a b) = .ok [valOf s a * valOf s b] := by
      rw [commandResult, mulInt_of_lt hfit, Except.map]
    exact exec_wrote (i := .mul d a b) (List.cons_ne_nil d []) (wf_of_dests_singleton rfl hd) hproduct

/-! ### Truncating division in signs and magnitudes (R194) -/

theorem sgn_cases (r : BigNum) : r.sgn = 1 ∨ r.sgn = -1 := by
  unfold BigNum.sgn
  cases r.sg with
  | false => exact .inl rfl
  | true => exact .inr rfl

theorem val_ne_zero {r : BigNum} (h : r.mag ≠ 0) : r.val ≠ 0 := fun h0 => h (by rw [← val_natAbs, h0, Int.natAbs_zero])

/-- The truncated quotient is the floor quotient of the magnitudes with the product of the signs. -/
theorem tdiv_val (a b : BigNum) : a.val.tdiv b.val = a.sgn * b.sgn * ((a.mag / b.mag : Nat) : Int) := by
  unfold BigNum.val
  have hmag : (a.mag : Int).tdiv b.mag = ((a.mag / b.mag : Nat) : Int) := rfl
  obtain ha | ha := sgn_cases a <;> obtain hb | hb := sgn_cases b <;>
    simp only [ha, hb, hmag, one_mul, neg_mul, neg_neg, Int.neg_tdiv, Int.tdiv_neg]

/-- The remainder of the truncated quotient is that of the magnitudes with the dividend's sign. -/
theorem tmod_val (a b : BigNum) : a.val.tmod b.val = a.sgn * ((a.mag % b.mag : Nat) : Int) := by
  unfold BigNum.val
  have hmag : (a.mag : Int).tmod b.mag = ((a.mag % b.mag : Nat) : Int) := rfl
  obtain ha | ha := sgn_cases a <;> obtain hb | hb := sgn_cases b <;>
    simp only [ha, hb, hmag, one_mul, neg_mul, Int.neg_tmod, Int.tmod_neg]

/-- What DIV answers for two register images; its first branch, |a| < |b|, is the same formula with quotient 0. -/
theorem divInt_val {a b : BigNum} (h : b.mag ≠ 0) :
    divInt a.val b.val = .ok (a.sgn * b.sgn * ((a.mag / b.mag : Nat) : Int), a.sgn * ((a.mag % b.mag : Nat) : Int)) := by
  rw [divInt_of_ne (val_ne_zero h), tdiv_val, tmod_val]

/-- Settles O20: DIV's results are those of `divInt_val`; the identity is that of truncating division, and the remainder's
magnitude is a remainder by |b|. -/
theorem divTruncatesTowardZero : Obligations.DivTruncatesTowardZero := by
  intro q r a b s hwf hb
  refine ⟨_, _, exec_wrote (i := .div q r a b) (List.cons_ne_nil q [r]) hwf (congrArg (Except.map _) (divInt_val (a := s.reg a) hb)),
    fun hlt => ?_, fun _ => ⟨rfl, rfl⟩, ?_, ?_⟩
  · have hquotient : (s.reg a).mag / (s.reg b).mag = 0 := Nat.div_eq_of_lt hlt
    have hremainder : (s.reg a).mag % (s.reg b).mag = (s.reg a).mag := Nat.mod_eq_of_lt hlt
    simp only [hquotient, hremainder]
    exact ⟨mul_zero _, rfl⟩
  · rw [← tdiv_val, ← tmod_val]
    exact (Int.tdiv_mul_add_tmod (valOf s a) (valOf s b)).symm
  · rw [natAbs_sgn_mul]
    exact Nat.mod_lt _ (Nat.pos_of_ne_zero hb)

/-! ### The sign-dispatch table (R190) -/

theorem dispatchAdd_eq (a b : BigNum) : dispatchAdd a.sg b.sg a.mag b.mag = a.val + b.val := by
  unfold BigNum.val BigNum.sgn
  cases a.sg <;> cases b.sg <;> simp [dispatchAdd, subMag] <;> ring

theorem dispatchSub_eq (a b : BigNum) : dispatchSub a.sg b.sg a.mag b.mag = a.val - b.val := by
  unfold BigNum.val BigNum.sgn
  cases a.sg <;> cases b.sg <;> simp [dispatchSub, subMag] <;> ring

theorem dispatchMul_eq (a b : BigNum) : dispatchMul a.sg b.sg a.mag b.mag = a.val * b.val := by
  unfold BigNum.val BigNum.sgn
  cases a.sg <;> cases b.sg <;> simp [dispatchMul]

theorem dispatchDiv_eq (a b : BigNum) :
    dispatchDiv a.sg b.sg a.mag b.mag = (a.sgn * b.sgn * ((a.mag / b.mag : Nat) : Int), a.sgn * ((a.mag % b.mag : Nat) : Int)) := by
  unfold BigNum.sgn
  cases a.sg <;> cases b.sg <;> simp [dispatchDiv]

/-- Settles O59: each table is the operation on the values, for each of the four pairs of signs. -/
theorem signDispatchIsIntegerArithmetic : Obligations.SignDispatchIsIntegerArithmetic := fun a b =>
  ⟨dispatchAdd_eq a b, dispatchSub_eq a b, dispatchMul_eq a b, fun hb =>
    (divInt_val hb).trans (congrArg Except.ok (dispatchDiv_eq a b).symm)⟩

/-! ### The division identity with MOD's result (R195) -/

/-- MOD's result is DIV's remainder but for a negative dividend above the divisor: there MOD drops the sign of the remainder. -/
theorem tmod_eq_reduced_iff (x y : Int) :
    x.tmod y = reduced x y ↔ ¬ (x < 0 ∧ y.natAbs < x.natAbs ∧ x.natAbs % y.natAbs ≠ 0) := by
  have hmag : (x.tmod y).natAbs = x.natAbs % y.natAbs := Int.natAbs_tmod x y
  have hnonneg : 0 ≤ x → 0 ≤ x.tmod y := Int.tmod_nonneg y
  have hnonpos : x ≤ 0 → x.tmod y ≤ 0 := fun hx => by
    have := Int.tmod_nonneg y (neg_nonneg.2 hx)
    rw [Int.neg_tmod] at this
    omega
  unfold reduced
  split
  · omega
  · split
    · next heq =>
      rw [heq, Nat.mod_self] at hmag
      omega
    · rw [Nat.mod_eq_of_lt (by omega)] at hmag
      omega

/-- Settles O60: by the identity of truncating division, MOD's result completes the quotient exactly when it is DIV's remainder. -/
theorem divisionIdentityWithMod : Obligations.DivisionIdentityWithMod := by
  intro x y m hy hm
  rw [modInt_of_ne hy] at hm
  obtain rfl := Except.ok.inj hm
  rw [← tmod_eq_reduced_iff]
  have hidentity := Int.tdiv_mul_add_tmod x y
  constructor <;> intro h <;> omega

end Sys2Proof.Machine

/-! Proofs of the family "modulo": MOD (O21). What MOD answers for a non-zero modulus is `reduced`, by `modInt_of_ne`; on register
values its three branches are those of the registers' magnitudes. -/

namespace Sys2Proof.Machine

/-! ### MOD's branches in magnitudes (R210, R211) -/

/-- The signs are lost but in the last branch, which returns the dividend as it is (R211). -/
theorem reduced_val (a b : BigNum) :
    reduced a.val b.val = if b.mag < a.mag then ((a.mag % b.mag : Nat) : Int) else if a.mag = b.mag then 0 else a.val := by
  unfold reduced
  simp only [val_natAbs]

/-- Settles O21: a modulus of non-zero magnitude raises no error, and the result is that of `reduced_val`. -/
theorem modTakesTheThreeBranches : Obligations.ModTakesTheThreeBranches := by
  intro d a b s hwf hb
  have hresult : commandResult s (.mod d a b) = .ok [reduced (valOf s a) (valOf s b)] :=
    congrArg (Except.map ([·])) (modInt_of_ne (val_ne_zero hb))
  rw [valOf, valOf, reduced_val] at hresult
  exact exec_wrote (i := .mod d a b) (List.cons_ne_nil d []) hwf hresult

end Sys2Proof.Machine

/-! Proofs of the family "gcd": GCD's triple (O22) and the Euclid step between triples (O23). `euclid` is the triple on unchecked
integers; `extendedGcd_eq` ties it to the model, by an invariant under which no check of a pass fails (log entry 11). -/

namespace Sys2Proof.Machine

/-! ### The triple on unchecked integers (R220) -/

/-- The three results of GCD (R220): the divisor and its two coefficients. -/
structure BezoutTriple where
  d : Int
  x : Int
  y : Int

/-- The triple of (a, b) from that of (b, a mod b), for the quotient `q`. -/
def BezoutTriple.rotate (q : Int) (w : BezoutTriple) : BezoutTriple := ⟨w.d, w.y, w.x - q * w.y⟩

theorem natAbs_tmod_lt (a : Int) {b : Int} (hb : b ≠ 0) : (a.tmod b).natAbs < b.natAbs := by
  rw [Int.natAbs_tmod]
  exact Nat.mod_lt _ (Int.natAbs_pos.2 hb)

/-- Euclid's recursion with the truncated quotient. -/
def euclid (a b : Int) : BezoutTriple :=
  if b = 0 then ⟨a, 1, 0⟩ else (euclid b (a.tmod b)).rotate (a.tdiv b)
termination_by b.natAbs
decreasing_by exact natAbs_tmod_lt a ‹_›

@[simp] theorem euclid_zero (a : Int) : euclid a 0 = ⟨a, 1, 0⟩ := by rw [euclid, if_pos rfl]

theorem euclid_of_ne (a : Int) {b : Int} (hb : b ≠ 0) : euclid a b = (euclid b (a.tmod b)).rotate (a.tdiv b) := by
  rw [euclid, if_neg hb]

/-- Bezout's identity. -/
theorem euclid_bezout (a b : Int) : (euclid a b).d = a * (euclid a b).x + b * (euclid a b).y := by
  induction a, b using euclid.induct with
  | case1 a => simp
  | case2 a b hb ih =>
    rw [euclid_of_ne a hb]
    simp only [BezoutTriple.rotate]
    rw [ih, Int.tmod_def]
    ring

/-- The divisor is the greatest common one of the magnitudes. -/
theorem natAbs_euclid_d (a b : Int) : (euclid a b).d.natAbs = Nat.gcd a.natAbs b.natAbs := by
  induction a, b using euclid.induct with
  | case1 a => simp
  | case2 a b hb ih =>
    rw [euclid_of_ne a hb]
    simp only [BezoutTriple.rotate]
    rw [ih, Int.natAbs_tmod, Nat.gcd_comm b.natAbs, ← Nat.gcd_rec, Nat.gcd_comm]

/-! ### What keeps the coefficients within the operands (log entry 11)

One pass turns cur·oldR − old·r into its negative, so it stays ±a or ±b; and its two terms never have the same sign, so each is no
larger than it. -/

/-- For a pair of coefficients beside the remainders `oldR` and `r`: cur·oldR − old·r fits and its two terms do not cancel. -/
def CoefficientsFit (oldR r old cur : Int) : Prop :=
  (cur * oldR - old * r).natAbs < Config.maxMag ∧ cur * oldR * (old * r) ≤ 0

/-- What holds of the working values before each pass. -/
def GcdPairs.Bounded (p : GcdPairs) : Prop :=
  p.oldR.natAbs < Config.maxMag ∧ p.r.natAbs < Config.maxMag ∧
    CoefficientsFit p.oldR p.r p.oldS p.s ∧ CoefficientsFit p.oldR p.r p.oldT p.t

theorem bounded_start {a b : Int} (ha : a.natAbs < Config.maxMag) (hb : b.natAbs < Config.maxMag) :
    GcdPairs.Bounded ⟨a, b, 1, 0, 0, 1⟩ :=
  ⟨ha, hb, ⟨by simpa using hb, by simp⟩, ⟨by simpa using ha, by simp⟩⟩

/-- Terms of different sign are each within their difference. -/
theorem natAbs_le_natAbs_sub {x y : Int} (h : x * y ≤ 0) : x.natAbs ≤ (x - y).natAbs ∧ y.natAbs ≤ (x - y).natAbs := by
  obtain h | h := mul_nonpos_iff.1 h <;> omega

theorem sub_tdiv_mul (x y : Int) : x - x.tdiv y * y = x.tmod y := by
  rw [Int.tmod_def, Int.mul_comm]

theorem natAbs_tmod_le (x y : Int) : (x.tmod y).natAbs ≤ x.natAbs := by
  rw [Int.natAbs_tmod]
  exact Nat.mod_le _ _

/-- The truncated quotient times the divisor is no larger than the dividend. -/
theorem natAbs_tdiv_mul_le (x y : Int) : (x.tdiv y * y).natAbs ≤ x.natAbs := by
  rw [Int.natAbs_mul, Int.natAbs_tdiv]
  exact Nat.div_mul_le_self _ _

/-- The remainder has the dividend's sign or is 0, so it keeps the sign of a product with the dividend. -/
theorem mul_tmod_nonpos {c x : Int} (y : Int) (h : c * x ≤ 0) : c * x.tmod y ≤ 0 := by
  obtain hx | rfl | hx := lt_trichotomy x 0
  · have hr : x.tmod y ≤ 0 := by
      have := Int.tmod_nonneg y (neg_nonneg.2 hx.le)
      rw [Int.neg_tmod] at this
      omega
    exact mul_nonpos_of_nonneg_of_nonpos (nonneg_of_mul_nonpos_left h hx) hr
  · simp
  · exact mul_nonpos_of_nonpos_of_nonneg (nonpos_of_mul_nonpos_left h hx) (Int.tmod_nonneg y hx.le)

/-- The two terms of x = (x / y)·y + x mod y do not have opposite signs. -/
theorem tdiv_mul_mul_tmod_nonneg (x y : Int) : 0 ≤ x.tdiv y * y * x.tmod y := by
  have hle := natAbs_tdiv_mul_le x y
  have hsum := Int.tdiv_mul_add_tmod x y
  have hr := natAbs_tmod_le x y
  exact mul_nonneg_iff.2 (by omega)

/-- One pass keeps the coefficients' bound. -/
theorem CoefficientsFit.next {oldR r old cur : Int} (h : CoefficientsFit oldR r old cur) :
    CoefficientsFit r (oldR.tmod r) cur (old - oldR.tdiv r * cur) := by
  obtain ⟨hlt, hsign⟩ := h
  have hflip : (old - oldR.tdiv r * cur) * r - cur * oldR.tmod r = -(cur * oldR - old * r) := by
    rw [Int.tmod_def]; ring
  have hold : cur * (old * r) * oldR.tmod r ≤ 0 := mul_tmod_nonpos r (by linarith)
  have hquot := mul_nonneg (mul_self_nonneg cur) (tdiv_mul_mul_tmod_nonneg oldR r)
  exact ⟨by rwa [hflip, Int.natAbs_neg], by linarith⟩

/-- The term of the current coefficient fits. -/
theorem CoefficientsFit.current_mul_lt {oldR r old cur : Int} (h : CoefficientsFit oldR r old cur) :
    cur.natAbs * oldR.natAbs < Config.maxMag := by
  obtain ⟨hlt, hsign⟩ := h
  rw [← Int.natAbs_mul]
  exact (natAbs_le_natAbs_sub hsign).1.trans_lt hlt

/-- While the old remainder is not 0 the current coefficient fits. -/
theorem CoefficientsFit.current_lt {oldR r old cur : Int} (h : CoefficientsFit oldR r old cur) (hR : oldR ≠ 0) :
    cur.natAbs < Config.maxMag :=
  (Nat.le_mul_of_pos_right _ (Int.natAbs_pos.2 hR)).trans_lt h.current_mul_lt

/-- The product that a pass forms with the current coefficient fits: the quotient is no larger than the old remainder. -/
theorem CoefficientsFit.product_lt {oldR r old cur : Int} (h : CoefficientsFit oldR r old cur) :
    (oldR.tdiv r * cur).natAbs < Config.maxMag := by
  rw [Int.natAbs_mul, Nat.mul_comm]
  exact (Nat.mul_le_mul_left _ (Int.natAbs_tdiv_le_natAbs oldR r)).trans_lt h.current_mul_lt

/-! ### No check of the loop fails (R220) -/

theorem nextOf_of_lt {old q cur : Int} (hproduct : (q * cur).natAbs < Config.maxMag)
    (hdifference : (old - q * cur).natAbs < Config.maxMag) : nextOf old q cur = .ok (old - q * cur) := by
  unfold nextOf
  rw [mulInt_of_lt hproduct]
  exact subInt_of_lt hdifference

theorem CoefficientsFit.nextOf_eq {oldR r old cur : Int} (h : CoefficientsFit oldR r old cur) (hr : r ≠ 0) :
    nextOf old (oldR.tdiv r) cur = .ok (old - oldR.tdiv r * cur) :=
  nextOf_of_lt h.product_lt (h.next.current_lt hr)

theorem nextOf_remainder {oldR : Int} (r : Int) (hR : oldR.natAbs < Config.maxMag) :
    nextOf oldR (oldR.tdiv r) r = .ok (oldR.tmod r) := by
  have hrem : (oldR - oldR.tdiv r * r).natAbs ≤ oldR.natAbs := by
    rw [sub_tdiv_mul]
    exact natAbs_tmod_le oldR r
  rw [nextOf_of_lt ((natAbs_tdiv_mul_le oldR r).trans_lt hR) (hrem.trans_lt hR), sub_tdiv_mul]

/-- The working values after one unchecked pass. -/
def GcdPairs.next (p : GcdPairs) : GcdPairs :=
  ⟨p.r, p.oldR.tmod p.r, p.s, p.oldS - p.oldR.tdiv p.r * p.s, p.t, p.oldT - p.oldR.tdiv p.r * p.t⟩

theorem GcdPairs.Bounded.next {p : GcdPairs} (h : p.Bounded) (hr : p.r ≠ 0) : p.next.Bounded := by
  obtain ⟨_, hlt, hs, ht⟩ := h
  exact ⟨hlt, (natAbs_tmod_lt p.oldR hr).trans hlt, hs.next, ht.next⟩

theorem gcdStep_of_bounded {p : GcdPairs} (h : p.Bounded) (hr : p.r ≠ 0) : gcdStep p = .ok p.next := by
  obtain ⟨hR, _, hs, ht⟩ := h
  simp only [gcdStep, divInt_of_ne hr, nextOf_remainder p.r hR, hs.nextOf_eq hr, ht.nextOf_eq hr, GcdPairs.next]

/-- The loop ends with the divisor of (oldR, r), and with each pair of coefficients combined by that triple. -/
theorem gcdLoop_of_bounded {n : Nat} {p : GcdPairs} (hn : p.r.natAbs ≤ n) (h : p.Bounded) :
    (gcdLoop n p).map (fun p' => [p'.oldR, p'.oldS, p'.oldT]) =
      .ok [(euclid p.oldR p.r).d, (euclid p.oldR p.r).x * p.oldS + (euclid p.oldR p.r).y * p.s,
        (euclid p.oldR p.r).x * p.oldT + (euclid p.oldR p.r).y * p.t] := by
  induction n generalizing p with
  | zero =>
    have hr : p.r = 0 := by omega
    simp [gcdLoop, hr, Except.map]
  | succ n ih =>
    by_cases hr : p.r = 0
    · simp [gcdLoop, hr, Except.map]
    · have hfalls : p.next.r.natAbs ≤ n := Nat.le_of_lt_succ ((natAbs_tmod_lt p.oldR hr).trans_le hn)
      rw [gcdLoop, if_neg (by omega), gcdStep_of_bounded h hr]
      refine (ih hfalls (h.next hr)).trans ?_
      rw [euclid_of_ne p.oldR hr]
      simp only [GcdPairs.next, BezoutTriple.rotate, Except.ok.injEq, List.cons.injEq, and_true, true_and]
      constructor <;> ring

/-- GCD's triple is that of Euclid's recursion; no operands below `MAXMAG` overflow it (log entry 11). -/
theorem extendedGcd_eq {a b : Int} (ha : a.natAbs < Config.maxMag) (hb : b.natAbs < Config.maxMag) :
    extendedGcd a b = .ok [(euclid a b).d, (euclid a b).x, (euclid a b).y] := by
  refine (gcdLoop_of_bounded le_rfl (bounded_start ha hb)).trans ?_
  simp only [mul_one, mul_zero, add_zero, zero_add]

/-- Settles O22: the triple is that of `euclid`, whose identity and divisor are those of Euclid's recursion. -/
theorem gcdWritesBezoutTriple : Obligations.GcdWritesBezoutTriple := by
  intro d x y a b s hwf
  have htriple := extendedGcd_eq (natAbs_valOf_lt s a) (natAbs_valOf_lt s b)
  refine ⟨_, _, _, htriple, exec_wrote (i := .gcd d x y a b) (List.cons_ne_nil d [x, y]) hwf htriple, euclid_bezout _ _, ?_,
    fun hb => ?_⟩
  · rw [natAbs_euclid_d, valOf, valOf, val_natAbs, val_natAbs, magOf, magOf]
  · have hzero : valOf s b = 0 := Int.natAbs_eq_zero.1 ((val_natAbs (s.reg b)).trans hb)
    rw [hzero, euclid_zero]
    exact ⟨rfl, rfl, rfl⟩

/-- Settles O23: the triple of (a, b) is by `euclid_of_ne` that of (b, a mod b) with the coefficients rotated. -/
theorem gcdTripleFollowsEuclid : Obligations.GcdTripleFollowsEuclid := by
  intro a b hb ha hlt
  rw [sub_tdiv_mul, extendedGcd_eq ha hlt, extendedGcd_eq hlt ((natAbs_tmod_lt a hb).trans hlt), euclid_of_ne a hb]
  exact ⟨_, _, _, rfl, rfl⟩

end Sys2Proof.Machine

/-! Proofs of the family "modpow": MODPOW by R230's passes (O26), on the textbook domain (O24) and with exponent zero (O25).
`PowWork.run` is the loop on unchecked integers; `powLoop_of_bounded` ties it to the model, by an invariant under which no product
overflows. -/

namespace Sys2Proof.Machine

/-! ### One pass (R230) -/

/-- The working values after one unchecked pass. -/
def PowWork.next (p : PowWork) (m : Int) : PowWork :=
  ⟨if p.e % 2 = 1 then reduced (p.answer * p.base) m else p.answer, reduced (p.base * p.base) m, p.e / 2⟩

theorem mulMod_eq {m : Int} (hm : m ≠ 0) (x y : Int) :
    mulMod x y m = if Config.maxMag ≤ (x * y).natAbs then .error .capacityExceeded else .ok (reduced (x * y) m) := by
  split
  · next hover => exact mulMod_of_le hover
  · next hfit => exact mulMod_of_lt hm (not_le.1 hfit)

/-- A pass fails at its first product that overflows (R246), and otherwise answers the unchecked pass. -/
theorem powStep_eq {m : Int} (hm : m ≠ 0) (p : PowWork) :
    powStep m p =
      if p.e % 2 = 1 ∧ Config.maxMag ≤ (p.answer * p.base).natAbs then .error .capacityExceeded
      else if Config.maxMag ≤ (p.base * p.base).natAbs then .error .capacityExceeded
      else .ok (p.next m) := by
  unfold powStep PowWork.next
  rw [mulMod_eq hm, mulMod_eq hm]
  by_cases hodd : p.e % 2 = 1
  · have hhalf : (p.e - 1) / 2 = p.e / 2 := by omega
    by_cases hover : Config.maxMag ≤ (p.answer * p.base).natAbs
    · simp only [hodd, hover, if_true, and_self]
    · by_cases hsquare : Config.maxMag ≤ (p.base * p.base).natAbs <;>
        simp only [hodd, hover, hsquare, hhalf, if_true, if_false, and_false]
  · by_cases hsquare : Config.maxMag ≤ (p.base * p.base).natAbs <;>
      simp only [hodd, hsquare, if_true, if_false, false_and]

/-- The loop ends at exponent zero, fails as its next pass does, or goes on from it. -/
theorem powLoop_eq {m : Int} (hm : m ≠ 0) (p : PowWork) :
    powLoop m p.e p =
      if p.e = 0 then .ok ⟨p.answer, p.base, 0⟩
      else if p.e % 2 = 1 ∧ Config.maxMag ≤ (p.answer * p.base).natAbs then .error .capacityExceeded
      else if Config.maxMag ≤ (p.base * p.base).natAbs then .error .capacityExceeded
      else powLoop m (p.e / 2) (p.next m) := by
  by_cases h0 : p.e = 0
  · rw [if_pos h0, h0, powLoop, ← h0]
  · obtain ⟨n, hn⟩ := Nat.exists_eq_succ_of_ne_zero h0
    have hfuel : powLoop m n (p.next m) = powLoop m (p.e / 2) (p.next m) :=
      powLoop_fuel (by simp only [PowWork.next]; omega) le_rfl
    rw [if_neg h0, ← hfuel, show powLoop m p.e p = powLoop m (n + 1) p by rw [hn], powLoop, if_neg h0, powStep_eq hm]
    by_cases hover : p.e % 2 = 1 ∧ Config.maxMag ≤ (p.answer * p.base).natAbs
    · simp only [if_pos hover]
    · by_cases hsquare : Config.maxMag ≤ (p.base * p.base).natAbs <;>
        simp only [if_neg hover, hsquare, if_true, if_false]

/-! ### The loop on unchecked integers (R230) -/

/-- The working values the unchecked passes end with. -/
def PowWork.run (m : Int) (p : PowWork) : PowWork :=
  if p.e = 0 then p else (p.next m).run m
termination_by p.e
decreasing_by exact Nat.div_lt_self (Nat.pos_of_ne_zero ‹_›) Nat.one_lt_two

theorem run_of_eq_zero {p : PowWork} (m : Int) (h : p.e = 0) : p.run m = p := by rw [PowWork.run, if_pos h]

theorem run_of_ne_zero {p : PowWork} (m : Int) (h : p.e ≠ 0) : p.run m = (p.next m).run m := by rw [PowWork.run, if_neg h]

/-- The pass for the highest exponent bit reduces the answer, so a non-zero exponent ends below the modulus. -/
theorem natAbs_answer_run_lt {m : Int} (hm : m ≠ 0) {p : PowWork} (he : p.e ≠ 0) : (p.run m).answer.natAbs < m.natAbs := by
  induction p using PowWork.run.induct m with
  | case1 p h0 => exact absurd h0 he
  | case2 p _ ih =>
    rw [run_of_ne_zero m he]
    by_cases hlast : (p.next m).e = 0
    · have hodd : p.e % 2 = 1 := by
        simp only [PowWork.next] at hlast
        omega
      rw [run_of_eq_zero m hlast, PowWork.next, if_pos hodd]
      exact natAbs_reduced_lt hm
    · exact ih hlast

/-! ### No product overflows (R232) -/

/-- What holds of the working values before each pass: its two products fit, and the answer is no larger than the modulus. -/
def PowWork.Bounded (m : Int) (p : PowWork) : Prop :=
  p.answer.natAbs ≤ m.natAbs ∧ (p.answer * p.base).natAbs < Config.maxMag ∧ (p.base * p.base).natAbs < Config.maxMag

theorem PowWork.bounded_start {m base : Int} (hm : m ≠ 0) (e : Nat) (hbase : base.natAbs * base.natAbs < Config.maxMag) :
    PowWork.Bounded m ⟨1, base, e⟩ :=
  ⟨Int.natAbs_pos.2 hm, by simpa using (Nat.le_mul_self _).trans_lt hbase, by rwa [Int.natAbs_mul]⟩

/-- After a pass the base is below the modulus, so every product with it is below the modulus' square. -/
theorem PowWork.Bounded.next {m : Int} (hm : m ≠ 0) (hsq : m.natAbs * m.natAbs ≤ Config.maxMag) {p : PowWork} (h : p.Bounded m) :
    (p.next m).Bounded m := by
  obtain ⟨hanswer, _, _⟩ := h
  have hbase : (p.next m).base.natAbs < m.natAbs := natAbs_reduced_lt hm
  have hle : (p.next m).answer.natAbs ≤ m.natAbs := by
    simp only [PowWork.next]
    split
    · exact (natAbs_reduced_lt hm).le
    · exact hanswer
  have hproduct {x : Int} (hx : x.natAbs ≤ m.natAbs) : (x * (p.next m).base).natAbs < Config.maxMag := by
    rw [Int.natAbs_mul]
    exact (Nat.mul_lt_mul_of_le_of_lt hx hbase (Int.natAbs_pos.2 hm)).trans_le hsq
  exact ⟨hle, hproduct hle, hproduct hbase.le⟩

/-- From bounded working values no pass fails. -/
theorem powLoop_of_bounded {m : Int} (hm : m ≠ 0) (hsq : m.natAbs * m.natAbs ≤ Config.maxMag) {p : PowWork} (h : p.Bounded m) :
    powLoop m p.e p = .ok (p.run m) := by
  induction p using PowWork.run.induct m with
  | case1 p h0 => rw [h0, run_of_eq_zero m h0, powLoop]
  | case2 p he ih =>
    have ⟨_, hmul, hsquare⟩ := h
    rw [powLoop_eq hm, if_neg he, if_neg fun hover => hmul.not_ge hover.2, if_neg hsquare.not_ge, run_of_ne_zero m he]
    exact ih (h.next hm hsq)

/-! ### The power modulo the modulus (R231) -/

theorem modPow_of_ne {m : Int} (hm : m ≠ 0) (base : Int) (e : Nat) :
    modPow base e m = (powLoop m e ⟨1, base, e⟩).map (·.answer) := by
  rw [modPow, if_neg (Int.natAbs_ne_zero.2 hm)]

theorem valOf_ne_zero {s : State} {r : Reg} (h : magOf s r ≠ 0) : valOf s r ≠ 0 := val_ne_zero h

theorem modPow_of_bounded {m base : Int} (hm : m ≠ 0) (e : Nat) (hbase : base.natAbs * base.natAbs < Config.maxMag)
    (hsq : m.natAbs * m.natAbs ≤ Config.maxMag) : modPow base e m = .ok (PowWork.run m ⟨1, base, e⟩).answer := by
  rw [modPow_of_ne hm]
  exact congrArg (Except.map (·.answer)) (powLoop_of_bounded hm hsq (PowWork.bounded_start hm e hbase))

/-- Without signs MOD is the remainder (R210, R231). -/
theorem reduced_of_nonneg {x m : Int} (hx : 0 ≤ x) (hm : 0 < m) : reduced x m = x % m := by
  unfold reduced
  split
  · rw [Int.natCast_mod, Int.natAbs_of_nonneg hx, Int.natAbs_of_nonneg hm.le]
  · split
    · next heq => rw [show x = m by omega, Int.emod_self]
    · rw [Int.emod_eq_of_lt hx (by omega)]

/-- A pass keeps answer · base^e modulo the modulus. -/
theorem next_modEq {m : Int} (hm : 0 < m) {p : PowWork} (ha : 0 ≤ p.answer) (hb : 0 ≤ p.base) :
    (p.next m).answer * (p.next m).base ^ (p.next m).e ≡ p.answer * p.base ^ p.e [ZMOD m] := by
  have hsquare : reduced (p.base * p.base) m ≡ p.base * p.base [ZMOD m] := by
    rw [reduced_of_nonneg (mul_nonneg hb hb) hm]
    exact Int.mod_modEq _ _
  have hpow : (p.base * p.base) ^ (p.e / 2) = p.base ^ (2 * (p.e / 2)) := by rw [← pow_two, ← pow_mul]
  have hsplit := Nat.div_add_mod p.e 2
  simp only [PowWork.next]
  split
  · next hodd =>
    have hmul : reduced (p.answer * p.base) m ≡ p.answer * p.base [ZMOD m] := by
      rw [reduced_of_nonneg (mul_nonneg ha hb) hm]
      exact Int.mod_modEq _ _
    have htotal : p.answer * p.base * (p.base * p.base) ^ (p.e / 2) = p.answer * p.base ^ p.e := by
      rw [hpow, mul_assoc, ← pow_succ', ← hodd, hsplit]
    exact htotal ▸ hmul.mul (hsquare.pow _)
  · next heven =>
    have htotal : p.answer * (p.base * p.base) ^ (p.e / 2) = p.answer * p.base ^ p.e := by
      rw [hpow, show 2 * (p.e / 2) = p.e by omega]
    exact htotal ▸ (hsquare.pow _).mul_left _

/-- Started without signs, the passes end with a non-negative answer congruent to answer · base^e. -/
theorem answer_run_modEq {m : Int} (hm : 0 < m) {p : PowWork} (ha : 0 ≤ p.answer) (hb : 0 ≤ p.base) :
    0 ≤ (p.run m).answer ∧ (p.run m).answer ≡ p.answer * p.base ^ p.e [ZMOD m] := by
  have hreduced {x : Int} (hx : 0 ≤ x) : 0 ≤ reduced x m := by
    rw [reduced_of_nonneg hx hm]
    exact Int.emod_nonneg x hm.ne'
  induction p using PowWork.run.induct m with
  | case1 p h0 =>
    rw [run_of_eq_zero m h0, h0, pow_zero, mul_one]
    exact ⟨ha, Int.ModEq.rfl⟩
  | case2 p he ih =>
    have hanswer : 0 ≤ (p.next m).answer := by
      simp only [PowWork.next]
      split
      · exact hreduced (mul_nonneg ha hb)
      · exact ha
    rw [run_of_ne_zero m he]
    exact (ih hanswer (hreduced (mul_nonneg hb hb))).imp_right fun h => h.trans (next_modEq hm ha hb)

/-- On the textbook domain the answer is the remainder of the power. -/
theorem answer_run_eq_pow_emod {m base : Int} {e : Nat} (hm : 0 < m) (hb : 0 ≤ base) (he : e ≠ 0) :
    (PowWork.run m ⟨1, base, e⟩).answer = base ^ e % m := by
  obtain ⟨hnonneg, hmod⟩ := answer_run_modEq hm (p := ⟨1, base, e⟩) zero_le_one hb
  have hlt : (PowWork.run m ⟨1, base, e⟩).answer.natAbs < m.natAbs := natAbs_answer_run_lt hm.ne' he
  rw [one_mul] at hmod
  rw [← Int.emod_eq_of_lt hnonneg (show _ < m by omega)]
  exact hmod

/-! ### MODPOW (R230, R247) -/

/-- A legal command whose computation fails completes with that error. -/
theorem exec_failed_of_error {i : Instr} {s : State} {e : CmdError} (hd : i.dests ≠ []) (hwf : i.wf = true)
    (he : commandResult s i = .error e) : Answers (exec i s) (Failed e s) := by
  rw [exec_of_dests_ne_nil hd, he, commit_error ((destsLegal_eq_wf i).trans hwf)]
  exact ⟨_, rfl, failed_raise e s⟩

theorem exec_modpow_wrote {d base exp m : Reg} {s : State} {v : Int} (hwf : (Instr.modpow d base exp m).wf = true)
    (h : modPow (valOf s base) (magOf s exp) (valOf s m) = .ok v) :
    Answers (exec (.modpow d base exp m) s) (Wrote s · [(d, v)]) :=
  exec_wrote (i := .modpow d base exp m) (List.cons_ne_nil d []) hwf (congrArg (Except.map ([·])) h)

theorem exec_modpow_failed {d base exp m : Reg} {s : State} {e : CmdError} (hwf : (Instr.modpow d base exp m).wf = true)
    (h : modPow (valOf s base) (magOf s exp) (valOf s m) = .error e) :
    Answers (exec (.modpow d base exp m) s) (Failed e s) :=
  exec_failed_of_error (i := .modpow d base exp m) (List.cons_ne_nil d []) hwf (congrArg (Except.map ([·])) h)

/-- Settles O24: no product overflows, and the passes end with the remainder of the power. -/
theorem modpowIsModularPower : Obligations.ModpowIsModularPower := by
  intro d base exp m s hwf hbase hm he hbound hsq
  have hbound' : (valOf s base).natAbs * (valOf s base).natAbs < Config.maxMag := by
    rwa [← Int.ofNat_lt, Int.natCast_mul, Int.natAbs_mul_self']
  have hsq' : (valOf s m).natAbs * (valOf s m).natAbs ≤ Config.maxMag := by
    rwa [← Int.ofNat_le, Int.natCast_mul, Int.natAbs_mul_self']
  rw [← answer_run_eq_pow_emod hm hbase he.ne']
  exact exec_modpow_wrote hwf (modPow_of_bounded hm.ne' _ hbound' hsq')

/-- Settles O25: the loop makes no pass, and its answer starts at 1. -/
theorem modpowOfZeroExponentIsOne : Obligations.ModpowOfZeroExponentIsOne := by
  intro d base exp m s hwf he hm
  refine exec_modpow_wrote hwf ?_
  rw [modPow_of_ne (valOf_ne_zero hm), he]
  rfl

/-- Settles O26: MODPOW's result is the loop's by definition, a pass is that of `powLoop_eq`, and under the bounds the loop is the
unchecked one, which ends below the modulus. -/
theorem modpowStaysBelowTheModulus : Obligations.ModpowStaysBelowTheModulus := by
  refine ⟨fun d base exp m s hwf hm => ⟨fun p hp => ?_, fun e he => ?_⟩,
    fun m answer base e hm => powLoop_eq hm ⟨answer, base, e⟩, fun d base exp m s hwf he hm hbound hsq => ?_⟩
  · exact exec_modpow_wrote hwf (by rw [modPow_of_ne (valOf_ne_zero hm), hp, Except.map])
  · exact exec_modpow_failed hwf (by rw [modPow_of_ne (valOf_ne_zero hm), he, Except.map])
  · have hne : valOf s m ≠ 0 := valOf_ne_zero hm
    have hmag (r : Reg) : magOf s r = (valOf s r).natAbs := (val_natAbs (s.reg r)).symm
    rw [hmag] at hbound hsq
    rw [hmag m]
    exact ⟨_, natAbs_answer_run_lt hne he, exec_modpow_wrote hwf (modPow_of_bounded hne _ hbound hsq)⟩

end Sys2Proof.Machine

/-! Proofs of the family "exceptions": `IllegalCommand` (O5), `CapacityExceeded` (O27, O28), `DivideByZero` (O29),
`BitIndexOutOfRange` (O30) and the frame of every error (O31). They rest on one rule: the error a command completes with is that of
its destinations or of its computation, `exec_err_iff`. -/

namespace Sys2Proof.Machine

/-! ### The error a command completes with (R97, R98, R247) -/

theorem commit_err_iff {ds : List Reg} {r : Except CmdError (List Int)} {s t : State} (h : commit ds r s = .next t) (e : CmdError) :
    t.err = some e ↔ (destsLegal ds = false ∧ e = .illegalCommand) ∨ (destsLegal ds = true ∧ r = .error e) := by
  obtain ⟨hlegal, h'⟩ | ⟨hlegal, e', he, h'⟩ | ⟨hlegal, vs, hvs, h'⟩ := commit_cases ds r s <;> rw [h'] at h <;>
    obtain rfl := Host.Outcome.next.inj h
  · simp [hlegal, eq_comm]
  · simp [hlegal, he]
  · simp [hlegal, hvs]

theorem commandResult_of_dests_eq_nil {i : Instr} (h : i.dests = []) (s : State) : commandResult s i = .ok [] := by
  obtain ⟨a, b, rfl | rfl⟩ := (dests_eq_nil_iff i).1 h <;> rfl

/-- Illegal destinations are one error; with legal ones the error is the computation's. -/
theorem exec_err_iff {i : Instr} {s t : State} (h : exec i s = .next t) (e : CmdError) :
    t.err = some e ↔
      (destsLegal i.dests = false ∧ e = .illegalCommand) ∨ (destsLegal i.dests = true ∧ commandResult s i = .error e) := by
  by_cases hd : i.dests = []
  · rw [exec_of_dests_eq_nil hd] at h
    obtain rfl := Host.Outcome.next.inj h
    simp [hd, destsLegal, commandResult_of_dests_eq_nil hd]
  · rw [exec_of_dests_ne_nil hd] at h
    exact commit_err_iff h e

/-- A legal command completes with the error of its computation, and then leaves what R247 says. -/
theorem exec_error_exactly {i : Instr} {s : State} {e : CmdError} {P : Prop} (hwf : i.wf = true)
    (h : commandResult s i = .error e ↔ P) :
    Answers (exec i s) fun t => (t.err = some e ↔ P) ∧ (t.err = some e → Failed e s t) := by
  obtain ⟨t, ht⟩ := exec_next i s
  have hlegal : destsLegal i.dests = true := (destsLegal_eq_wf i).trans hwf
  refine ⟨t, ht, ?_, exec_failed ht⟩
  rw [exec_err_iff ht e, ← h, hlegal]
  simp

/-! ### Words that are no legal command (R245) -/

/-- A word is a command's exactly when it decodes to that command. -/
theorem encode_eq_iff {i : Instr} {w : Word} : encode i = w ↔ decode w = .ok i :=
  ⟨fun h => h ▸ decodeOfEncodeIsTheCommand i, encodeOfDecodeIsTheWord w i⟩

/-- A completion with an error leaves what R247 says, also when the word is no command. -/
theorem complete_failed {s t : State} {e : CmdError} (h : complete s = .next t) (he : t.err = some e) : Failed e s t := by
  obtain rfl | ⟨i, _, hi⟩ := complete_cases h
  · obtain rfl := Option.some.inj he
    exact failed_raise _ s
  · exact exec_failed hi he

/-- Settles O5: a word that does not decode is no command's, and a word that decodes is one command's, whose destinations decide. -/
theorem illegalCommandExactly : Obligations.IllegalCommandExactly := by
  intro s
  obtain ⟨t, ht⟩ := complete_next s
  refine ⟨t, ht, ?_, complete_failed ht⟩
  simp only [encode_eq_iff]
  cases hdec : decode s.cmd with
  | error e =>
    rw [complete_of_decode_error hdec] at ht
    obtain rfl := Host.Outcome.next.inj ht
    simp
  | ok i =>
    rw [complete_of_decode_ok hdec] at ht
    rw [exec_illegal_iff ht, destsLegal_eq_wf]
    simp

/-- Settles O31: an error is raised on the state as it was, by a command or for a word that is none. -/
theorem errorsChangeOnlyStatus : Obligations.ErrorsChangeOnlyStatus :=
  ⟨fun _ _ _ _ => exec_failed, fun _ _ _ => complete_failed⟩

/-! ### A divisor of zero magnitude (R242), an amount beyond the capacity (R244) -/

theorem commandResult_of_divisor_zero {s : State} {i : Instr} {b : Reg} (hb : divisorOf i = some b) (h : magOf s b = 0) :
    commandResult s i = .error .divideByZero := by
  have hval : (valOf s b).natAbs = 0 := (val_natAbs (s.reg b)).trans h
  cases i with
  | divm q r a b' =>
    obtain rfl := Option.some.inj hb
    rw [commandResult, divMag, if_pos h, Except.map]
  | div q r a b' =>
    obtain rfl := Option.some.inj hb
    rw [commandResult, divInt, if_pos hval, Except.map]
  | mod d a b' =>
    obtain rfl := Option.some.inj hb
    rw [commandResult, modInt, if_pos hval, Except.map]
  | modpow d base exp m =>
    obtain rfl := Option.some.inj hb
    rw [commandResult, modPow, if_pos hval, Except.map]
  | _ => cases hb

/-- Settles O29: a zero divisor fails before anything else is computed, and nothing else raises the error. -/
theorem divideByZeroExactly : Obligations.DivideByZeroExactly := fun i s hwf =>
  exec_error_exactly hwf
    ⟨fun h => by simpa using commandResult_error h, fun ⟨_, hb, hzero⟩ => commandResult_of_divisor_zero hb hzero⟩

theorem shiftBy_of_amount_ge {unit : Nat} {n : Int} (h : (32 * Config.cap : Nat) ≤ (unit : Int) * n) (sg : Int) (m : Nat) :
    shiftBy unit sg m n = .error .bitIndexOutOfRange := if_pos h

theorem commandResult_of_amountOutOfRange {s : State} {i : Instr} (h : amountOutOfRange s i) :
    commandResult s i = .error .bitIndexOutOfRange := by
  cases i with
  | flipb d a =>
    have hindex : Config.cap ≤ bitIndex s / 32 := by
      unfold amountOutOfRange at h
      omega
    rw [commandResult, flipBit, if_pos hindex, Except.map]
  | shw d a | shb d a =>
    unfold amountOutOfRange at h
    exact congrArg (Except.map ([·])) (shiftBy_of_amount_ge (by omega) (sgnOf s a) (magOf s a))
  | _ => exact h.elim

/-- Settles O30: the amount is checked first, and nothing else raises the error. -/
theorem bitIndexOutOfRangeExactly : Obligations.BitIndexOutOfRangeExactly := fun i s hwf =>
  exec_error_exactly hwf ⟨fun h => by simpa using commandResult_error h, commandResult_of_amountOutOfRange⟩

/-! ### Results beyond the capacity (R241) -/

/-- The commands whose computation checks the capacity: shifts up, sums, products, and the loops of GCD and MODPOW. -/
def checksCapacity : Instr → Bool
  | .shw .. | .shb .. | .addm .. | .mulm .. | .add .. | .sub .. | .mul .. | .gcd .. | .modpow .. => true
  | _ => false

theorem checksCapacity_of_commandResult {s : State} {i : Instr} (h : commandResult s i = .error .capacityExceeded) :
    checksCapacity i = true := by
  cases i with
  | shw | shb | addm | mulm | add | sub | mul | gcd | modpow => rfl
  | flipb d a => exact nomatch (flipBit_error (exceptMap_eq_error h)).1
  | divm q r a b => exact nomatch (divMag_error (exceptMap_eq_error h)).1
  | div q r a b => exact nomatch (divInt_error (exceptMap_eq_error h)).1
  | mod d a b => exact nomatch (modInt_error (exceptMap_eq_error h)).1
  | _ => cases h

/-- Settles O28: none of these commands checks the capacity. -/
theorem commandsThatNeverOverflow : Obligations.CommandsThatNeverOverflow := by
  intro d e a b neg s i hi
  obtain ⟨t, ht⟩ := exec_next i s
  refine ⟨t, ht, fun hcap => ?_⟩
  obtain ⟨_, hne⟩ | ⟨_, hresult⟩ := (exec_err_iff ht .capacityExceeded).1 hcap
  · cases hne
  · have hchecks := checksCapacity_of_commandResult hresult
    fin_cases hi <;> cases hchecks

/-- A command with one general destination whose computation fails completes with that error. -/
theorem exec_failed_of_dests_singleton {i : Instr} {s : State} {d : Reg} {r : Except CmdError Int} {e : CmdError}
    (hi : i.dests = [d]) (hd : 2 ≤ d.val) (hresult : commandResult s i = r.map ([·])) (hr : r = .error e) :
    Answers (exec i s) (Failed e s) :=
  exec_failed_of_error (by simp [hi]) (wf_of_dests_singleton hi hd) (by rw [hresult, hr, Except.map])

/-- So does one whose result is checked against the capacity and overflows it (R241). -/
theorem exec_overflowed {i : Instr} {s : State} {d : Reg} {v : Int} (hi : i.dests = [d]) (hd : 2 ≤ d.val)
    (hresult : commandResult s i = (checkCap v).map ([·])) (hover : Config.maxMag ≤ v.natAbs) :
    Answers (exec i s) (Failed .capacityExceeded s) :=
  exec_failed_of_dests_singleton hi hd hresult (checkCap_of_le hover)

theorem shiftBy_sgn_of_overflow {unit : Nat} {n : Int} (r : BigNum) (hn : 0 ≤ n) (hin : (unit : Int) * n < (32 * Config.cap : Nat))
    (hover : Config.maxMag ≤ r.mag * 2 ^ (unit * n.toNat)) : shiftBy unit r.sgn r.mag n = .error .capacityExceeded := by
  rw [shiftBy_of_nonneg hn hin]
  exact checkCap_of_le (hover.trans_eq (natAbs_sgn_mul r _).symm)

/-- A pass that reaches its squaring fails there, and one that does not has failed before with the same error (R230, R246). -/
theorem powLoop_of_square_overflow {m : Int} (hm : m ≠ 0) {p : PowWork} (he : p.e ≠ 0)
    (hsquare : Config.maxMag ≤ (p.base * p.base).natAbs) : powLoop m p.e p = .error .capacityExceeded := by
  rw [powLoop_eq hm, if_neg he, if_pos hsquare, ite_self]

/-- Settles O27: each computation checks its result, and a general destination is legal. -/
theorem overflowRaisesCapacityExceeded : Obligations.OverflowRaisesCapacityExceeded := by
  intro d a b s hd
  refine ⟨fun hn hcap hover => ?_, fun hn hcap hover => ?_, fun hover => ?_, fun hover => ?_, fun hover => ?_, fun hover => ?_,
    fun hover => ?_, fun m he hm hover => ?_⟩
  · have hin : ((32 : Nat) : Int) * s.arg0.toInt < (32 * Config.cap : Nat) := by omega
    exact exec_failed_of_dests_singleton rfl hd rfl (shiftBy_sgn_of_overflow (s.reg a) hn hin hover)
  · have hin : ((1 : Nat) : Int) * s.arg0.toInt < (32 * Config.cap : Nat) := by omega
    exact exec_failed_of_dests_singleton rfl hd rfl (shiftBy_sgn_of_overflow (s.reg a) hn hin (by rwa [Nat.one_mul]))
  · exact exec_overflowed (v := (magOf s a + magOf s b : Nat)) rfl hd (by rw [commandResult, addMag]) (by rwa [Int.natAbs_natCast])
  · exact exec_overflowed (v := (magOf s a * magOf s b : Nat)) rfl hd (by rw [commandResult, mulMag]) (by rwa [Int.natAbs_natCast])
  · exact exec_overflowed rfl hd (by rw [commandResult, addInt]) hover
  · exact exec_overflowed rfl hd (by rw [commandResult, subInt]) hover
  · exact exec_overflowed rfl hd (by rw [commandResult, mulInt]) hover
  · have hsquare : Config.maxMag ≤ (valOf s a * valOf s a).natAbs := by
      rw [Int.natAbs_mul, valOf, val_natAbs]
      exact hover
    have hne : valOf s m ≠ 0 := valOf_ne_zero hm
    have hloop := powLoop_of_square_overflow hne (p := ⟨1, valOf s a, magOf s b⟩) he hsquare
    exact exec_modpow_failed (wf_of_dests_singleton rfl hd) (by rw [modPow_of_ne hne, hloop, Except.map])

end Sys2Proof.Machine

/-! Proofs of the family "reset_and_hazards": the interrupt output (O50) and the reset pin (O41). -/

namespace Sys2Proof.Machine

/-! ### The reset pin (R280, R281) -/

/-- The block holds its reset values: a clock edge in reset would change nothing. -/
def InReset (t : State) : Prop := clockReset t = t

theorem InReset.values {t : State} (h : InReset t) :
    t.regs = State.reset.regs ∧ t.cmd = 0 ∧ t.busy = false ∧ t.done = false ∧ t.err = none ∧ t.ie = false
      ∧ t.flags = State.reset.flags ∧ t.arg0 = 0 ∧ t.arg1 = 0 ∧ t.sticky = State.reset.sticky := by
  rw [← h]
  exact ⟨rfl, rfl, rfl, rfl, rfl, rfl, rfl, rfl, rfl, rfl⟩

/-- Whatever the turn, the block holds its reset values after it; only lowering the pin lowers it. -/
theorem inReset_turnInReset (u : Turn) {s : State} (hrst : s.rst = true) :
    InReset (turnInReset u s) ∧ ((turnInReset u s).rst = false ↔ u = .host (.setRst false)) := by
  cases u with
  | block => exact ⟨rfl, by simp [turnInReset, hrst]⟩
  | host h =>
    cases h with
    | memRead a => exact ⟨rfl, by simp [turnInReset, hrst]⟩
    | memWrite a v => exact ⟨rfl, by simp [turnInReset, hrst]⟩
    | setRst level => exact ⟨rfl, by simp [turnInReset]⟩

/-- A step with `rst` high, or one that raises it, leaves the block in reset; `rst` is low afterwards when the turn lowers it. -/
theorem step_inReset {s : State} (h : s.rst = true ∨ s.turns.head? = some (.host (.setRst true))) :
    Answers (step s) fun t => InReset t ∧ (t.rst = false ↔ s.turns.head? = some (.host (.setRst false))) := by
  cases hrst : s.rst with
  | false =>
    have hhead := h.resolve_left (by simp [hrst])
    exact ⟨_, step_of_nextTurnIs_host ⟨hrst, hhead⟩, rfl, by simp [hhead, hostAccess]⟩
  | true =>
    obtain ⟨t, ht⟩ := noStepStops s
    obtain ⟨u, hturn, hnext⟩ := step_cases ht
    have hafter : (afterTurn s).rst = true := hrst
    obtain rfl := Host.Outcome.next.inj ((if_pos hafter).symm.trans hturn)
    obtain ⟨hreset, hlow⟩ := inReset_turnInReset u hafter
    refine ⟨_, ht, hreset, hlow.trans ?_⟩
    obtain hhead | ⟨hnil, rfl⟩ := hnext
    · simp [hhead]
    · simp [hnil]

/-- Settles O41: the step leaves the block in reset, where every field has its reset value. -/
theorem resetPinAbandonsTheCommand : Obligations.ResetPinAbandonsTheCommand := by
  intro s h
  obtain ⟨t, ht, hreset, hrst⟩ := step_inReset h
  obtain ⟨hregs, hcmd, hbusy, hdone, herr, hie, hflags, harg0, harg1, hsticky⟩ := hreset.values
  exact ⟨t, ht, hregs, hcmd, hbusy, hdone, herr, hie, hflags, harg0, harg1, hsticky, hrst⟩

/-! ### The interrupt output (R250) -/

theorem irq_of_done_low {s : State} (h : s.done = false) : irq s = false := by simp [irq, h]

theorem irq_of_ie_low {s : State} (h : s.ie = false) : irq s = false := by simp [irq, h]

/-- Every completion sets `DONE` and leaves `IE`, so it raises `irq` exactly when `IE` is 1. -/
theorem irq_complete {s t : State} (h : complete s = .next t) : irq t = s.ie := by
  obtain ⟨hdone, hie⟩ : t.done = true ∧ t.ie = s.ie := by
    obtain rfl | ⟨i, _, hi⟩ := complete_cases h
    · exact ⟨rfl, rfl⟩
    · obtain ⟨_, hdone, _, hie, _⟩ := exec_untouched hi
      exact ⟨hdone, hie⟩
  rw [irq, hdone, hie, Bool.true_and]

/-- Settles O50: a completion sets `DONE`, and each of the four causes clears `DONE` or `IE`. -/
theorem interruptMirrorsDone : Obligations.InterruptMirrorsDone := by
  refine ⟨fun s => by simp [irq], fun s hs => ?_, fun s v hidle h => ?_, fun s v hidle hv h => ?_, fun s v hv h => ?_,
    fun s h => ?_⟩
  · obtain ⟨t, ht⟩ := complete_next (afterTurn s)
    exact ⟨t, (step_of_blockCompletesNext hs).trans ht, irq_complete (s := afterTurn s) ht⟩
  · have hwrite := (cmdWriteStartsACommand.1 (afterTurn s) v).1 hidle
    exact ⟨_, (step_of_nextTurnIs_host h).trans (congrArg _ hwrite), irq_of_done_low rfl⟩
  · obtain ⟨hstatus, _⟩ := controlRegisterWrites s v
    exact ⟨_, hstatus h, irq_of_done_low (by simp [hidle, hv])⟩
  · obtain ⟨_, hctrl, _⟩ := controlRegisterWrites s v
    exact ⟨_, hctrl h, irq_of_ie_low hv⟩
  · obtain ⟨t, ht, hreset, _⟩ := step_inReset (.inr h)
    obtain ⟨_, _, _, hdone, _⟩ := hreset.values
    exact ⟨t, ht, irq_of_done_low hdone⟩

end Sys2Proof.Machine
